-- ==== Sys2Proof/Word.lean ====
section
/-! DEFINITION. The words of the block: the 32-bit register-interface word and the 3-bit register index. -/

namespace Sys2Proof

/-- A 32-bit word: a command word (R80), a control or status register (R23), the data of one host access (R56). -/
abbrev Word := BitVec 32

/-- A 3-bit register field; value `i` selects operand register `Ri` and every value names one (R20, R83). -/
abbrev Reg := BitVec 3

end Sys2Proof
end

