-- ==== Sys2Proof/Config.lean ====
section
/-! DEFINITION. What one build of the block fixes: its parameters (R6), and the names of the error codes (R210). -/

namespace Sys2Proof

/-- The build parameters of R6 that a rule reads. Every parameter is fixed at build time and the host cannot change it,
so they are carried as data in the state and no step writes them: what is proved for every state is proved for every
width (log entry 1). `LAT` is not here because no rule depends on it (R249), `BASE` because a model works in offsets
(log entry 3). -/
structure Params where
  /-- `W/32`, the number of 32-bit words in one operand register (PARAM.WORDS, R25). -/
  words : Nat
  /-- The value the ID register reads (R24). -/
  idValue : Word
  /-- The size in bytes of the host address range that selects the block (R6). -/
  aperture : Nat
  deriving DecidableEq, Repr

/-- `W`, the width in bits of an operand register (R6). -/
def Params.width (p : Params) : Nat := 32 * p.words

/-- `W/8`, the bytes one operand register takes in the window (R52). -/
def Params.regBytes (p : Params) : Nat := 4 * p.words

/-- The constraints R6 puts on the parameters: `1024 <= W`, `W/32 <= 0xFFFF`, `APERTURE >= 0x1000 + W`
(that `W` is a multiple of 32 holds by construction). -/
abbrev Params.Legal (p : Params) : Prop :=
  1024 ≤ p.width ∧ p.words ≤ 0xFFFF ∧ 0x1000 + p.width ≤ p.aperture

/-- The defaults of R6: `W = 2048`, `ID_VALUE = 0x4D4D5801`. DESIGN CHOICE, unsafe for claims about runs from reset:
`APERTURE` is open in the spec and is `0x2000` here (log entry 2). -/
def Params.default : Params := { words := 64, idValue := 0x4D4D5801#32, aperture := 0x2000 }

/-- `NREG` (R6, R20): the number of operand registers. -/
def nreg : Nat := 8

/-- The errors a command completes with (R210). Code 0, NONE, is the absence of an error; codes 6 to 15 are reserved
and never written, so they have no name here (log entry 11). -/
inductive CmdError where
  /-- Code 1: the opcode is unassigned (R88). -/
  | illegalOpcode
  /-- Code 2: a reserved bit is non-zero (R87), or `rd = rd2` in MUL or DIVMOD (R89). -/
  | badForm
  /-- Code 3: a divisor or modulus is 0, or LCM of 0 and 0. -/
  | divZero
  /-- Code 4: the exact result is outside `[0, 2^W)`. -/
  | overflow
  /-- Code 5: `gcd(a, m) != 1` in MODINV. -/
  | noInverse
  deriving DecidableEq, Repr

end Sys2Proof
end

