-- ==== Sys2Proof/Syntax.lean ====
section
/-! DEFINITION. The commands: one constructor per row of spec/opcode_table.json, with the fields the command reads (R86). -/

namespace Sys2Proof

/-- The 18 commands of R85. Operands stand in the order of the assembler syntax (R91), destinations first. A field the
command does not use is ignored (R83), so the constructor does not hold it. -/
inductive Instr where
  /-- R171. -/
  | nop
  /-- R111: `rd` low half, `rd2` high half. -/
  | mul (rd rd2 rs1 rs2 : Reg)
  /-- R112: `rs3` is the modulus. -/
  | modmul (rd rs1 rs2 rs3 : Reg)
  /-- R113: `rs2` is the modulus. -/
  | mod (rd rs1 rs2 : Reg)
  /-- R114: `rs3` is the modulus. -/
  | modadd (rd rs1 rs2 rs3 : Reg)
  /-- R115: `rs3` is the modulus. -/
  | modsub (rd rs1 rs2 rs3 : Reg)
  /-- R140: base `rs1`, exponent `rs2`, modulus `rs3`. -/
  | modexp (rd rs1 rs2 rs3 : Reg)
  /-- R151. -/
  | gcd (rd rs1 rs2 : Reg)
  /-- R152: value `rs1`, modulus `rs2`. -/
  | modinv (rd rs1 rs2 : Reg)
  /-- R153. -/
  | lcm (rd rs1 rs2 : Reg)
  /-- R172. -/
  | mov (rd rs1 : Reg)
  /-- R173. -/
  | movi (rd : Reg) (imm16 : BitVec 16)
  /-- R174. -/
  | add (rd rs1 rs2 : Reg)
  /-- R175: minuend `rs1`, subtrahend `rs2`. -/
  | sub (rd rs1 rs2 : Reg)
  /-- R176: `rd` quotient, `rd2` remainder, dividend `rs1`, divisor `rs2`. -/
  | divmod (rd rd2 rs1 rs2 : Reg)
  /-- R177: left `rs1`, right `rs2`. -/
  | cmp (rs1 rs2 : Reg)
  /-- R178: signed value `rs1`, modulus `rs2`. -/
  | smod (rd rs1 rs2 : Reg)
  /-- R179: value `rs1`, modulus `rs2`. -/
  | sremap (rd rs1 rs2 : Reg)
  deriving DecidableEq, Repr

end Sys2Proof
end

