-- ==== Sys2Proof/Decode.lean ====
section
/-! DEFINITION. From a 32-bit command word to a command or a named error (R81, R82, R85 to R90), and back. -/

namespace Sys2Proof

/-- `w[7:0]` (R81, R82). -/
def opcodeField (w : Word) : BitVec 8 := w.extractLsb' 0 8

/-- `w[10:8]` (R81, R82). -/
def rdField (w : Word) : Reg := w.extractLsb' 8 3

/-- `w[13:11]` (R81). -/
def rd2Field (w : Word) : Reg := w.extractLsb' 11 3

/-- `w[16:14]` (R81). -/
def rs1Field (w : Word) : Reg := w.extractLsb' 14 3

/-- `w[19:17]` (R81). -/
def rs2Field (w : Word) : Reg := w.extractLsb' 17 3

/-- `w[22:20]` (R81). -/
def rs3Field (w : Word) : Reg := w.extractLsb' 20 3

/-- `w[31:16]` of format I (R82). -/
def imm16Field (w : Word) : BitVec 16 := w.extractLsb' 16 16

/-- The reserved bits hold 0: `w[15:11]` for MOVI, `w[31:23]` for every other command (R87). -/
def reservedClear (w : Word) : Bool :=
  if opcodeField w = 0x41#8 then w.extractLsb' 11 5 == 0#5 else w.extractLsb' 23 9 == 0#9

/-- The opcode map of R85 with the fields each command reads (R86); `none` for the 238 unassigned opcodes (R88). -/
def instrOf (w : Word) : Option Instr :=
  match opcodeField w with
  | 0x00#8 => some .nop
  | 0x10#8 => some (.mul (rdField w) (rd2Field w) (rs1Field w) (rs2Field w))
  | 0x11#8 => some (.modmul (rdField w) (rs1Field w) (rs2Field w) (rs3Field w))
  | 0x12#8 => some (.mod (rdField w) (rs1Field w) (rs2Field w))
  | 0x13#8 => some (.modadd (rdField w) (rs1Field w) (rs2Field w) (rs3Field w))
  | 0x14#8 => some (.modsub (rdField w) (rs1Field w) (rs2Field w) (rs3Field w))
  | 0x20#8 => some (.modexp (rdField w) (rs1Field w) (rs2Field w) (rs3Field w))
  | 0x30#8 => some (.gcd (rdField w) (rs1Field w) (rs2Field w))
  | 0x31#8 => some (.modinv (rdField w) (rs1Field w) (rs2Field w))
  | 0x32#8 => some (.lcm (rdField w) (rs1Field w) (rs2Field w))
  | 0x40#8 => some (.mov (rdField w) (rs1Field w))
  | 0x41#8 => some (.movi (rdField w) (imm16Field w))
  | 0x42#8 => some (.add (rdField w) (rs1Field w) (rs2Field w))
  | 0x43#8 => some (.sub (rdField w) (rs1Field w) (rs2Field w))
  | 0x44#8 => some (.divmod (rdField w) (rd2Field w) (rs1Field w) (rs2Field w))
  | 0x45#8 => some (.cmp (rs1Field w) (rs2Field w))
  | 0x46#8 => some (.smod (rdField w) (rs1Field w) (rs2Field w))
  | 0x47#8 => some (.sremap (rdField w) (rs1Field w) (rs2Field w))
  | _ => none

/-- R90, its first three checks in their order: an unassigned opcode, then a non-zero reserved bit. The fourth check,
`rd = rd2` in MUL and DIVMOD, is made by those two commands' own meanings before they read a register, with the same
error and the same priority (R89, R111, R176; log entry 9). -/
def decode (w : Word) : Except CmdError Instr :=
  match instrOf w with
  | none => .error .illegalOpcode
  | some i => if reservedClear w then .ok i else .error .badForm

/-- The command of an instruction whose bits are `w`, numbered as spec/opcode_table.json numbers them. -/
def decodeTableWord (nbits w : Nat) : Option Instr :=
  match decode (BitVec.ofNat 32 (w % 2 ^ nbits)) with
  | .ok i => some i
  | .error _ => none

/-- Format R, most significant field first: `rrrrrrrrr ccc bbb aaa eee ddd oooooooo` with `r` zero (R81). -/
def wordR (op : BitVec 8) (rd rd2 rs1 rs2 rs3 : Reg) : Word :=
  0#9 ++ rs3 ++ rs2 ++ rs1 ++ rd2 ++ rd ++ op

/-- Format I, most significant field first: `iiiiiiiiiiiiiiii rrrrr ddd oooooooo` with `r` zero (R82). -/
def wordI (op : BitVec 8) (rd : Reg) (imm16 : BitVec 16) : Word :=
  imm16 ++ 0#5 ++ rd ++ op

/-- The command word of a command; the fields it ignores are encoded as zero (R91). -/
def encode : Instr → Word
  | .nop => wordR 0x00 0 0 0 0 0
  | .mul rd rd2 rs1 rs2 => wordR 0x10 rd rd2 rs1 rs2 0
  | .modmul rd rs1 rs2 rs3 => wordR 0x11 rd 0 rs1 rs2 rs3
  | .mod rd rs1 rs2 => wordR 0x12 rd 0 rs1 rs2 0
  | .modadd rd rs1 rs2 rs3 => wordR 0x13 rd 0 rs1 rs2 rs3
  | .modsub rd rs1 rs2 rs3 => wordR 0x14 rd 0 rs1 rs2 rs3
  | .modexp rd rs1 rs2 rs3 => wordR 0x20 rd 0 rs1 rs2 rs3
  | .gcd rd rs1 rs2 => wordR 0x30 rd 0 rs1 rs2 0
  | .modinv rd rs1 rs2 => wordR 0x31 rd 0 rs1 rs2 0
  | .lcm rd rs1 rs2 => wordR 0x32 rd 0 rs1 rs2 0
  | .mov rd rs1 => wordR 0x40 rd 0 rs1 0 0
  | .movi rd imm16 => wordI 0x41 rd imm16
  | .add rd rs1 rs2 => wordR 0x42 rd 0 rs1 rs2 0
  | .sub rd rs1 rs2 => wordR 0x43 rd 0 rs1 rs2 0
  | .divmod rd rd2 rs1 rs2 => wordR 0x44 rd rd2 rs1 rs2 0
  | .cmp rs1 rs2 => wordR 0x45 0 0 rs1 rs2 0
  | .smod rd rs1 rs2 => wordR 0x46 rd 0 rs1 rs2 0
  | .sremap rd rs1 rs2 => wordR 0x47 rd 0 rs1 rs2 0

end Sys2Proof
end

