-- ==== Sys2Proof/Machine/State.lean ====
section
/-! DEFINITION. The state of the block as plain data, the reasons a step stops, and the state after reset. -/

namespace Sys2Proof.Machine

/-- The three values of STATUS.CMP that the spec writes (R35); `0b11` is never written, so it has no name
(log entry 11). -/
inductive CmpFlag where
  /-- `0b00`: the operands were equal; also the reset value, which is the outcome of no comparison (R35). -/
  | eq
  /-- `0b01`: the left operand was smaller. -/
  | lt
  /-- `0b10`: the left operand was greater. -/
  | gt
  deriving DecidableEq, Repr

/-- One host access of the register interface (R9, R66): a byte offset from `BASE`, a size in bytes, and for a write
its 32-bit data. -/
inductive Access where
  /-- `MemRead(off, size)`. -/
  | read (off size : Nat)
  /-- `MemWrite(off, size, data)`. -/
  | write (off size : Nat) (data : Word)
  deriving DecidableEq, Repr

/-- One entry of the total order of host accesses, completions and resets (R61). -/
inductive Event where
  /-- The host performs an access. -/
  | host (a : Access)
  /-- The engine has its turn: it completes the command in progress, if there is one (R12, R212). -/
  | engine
  /-- `rst_n` is pulled low and released: a hardware reset (R240, log entry 7). -/
  | hardReset
  deriving DecidableEq, Repr

/-- The whole state of the block (R20 to R43), its build parameters, and the two fields of the model's own: the
schedule of what comes next and the host's record of what its reads returned. -/
structure State where
  /-- The build parameters (R6); no step writes them. -/
  params : Params
  /-- R0 to R7, each an unsigned integer in `[0, 2^W)` (R7, R20; log entry 10). -/
  regs : Vector Nat 8
  /-- CTRL.IRQ_EN (R26). -/
  irqEn : Bool
  /-- STATUS.BUSY (R31). -/
  busy : Bool
  /-- STATUS.ERR (R32). -/
  err : Bool
  /-- STATUS.ERRCODE (R32, R210); `none` is code 0, NONE. -/
  errCode : Option CmdError
  /-- STATUS.Z (R34). -/
  z : Bool
  /-- STATUS.CMP (R35). -/
  cmp : CmpFlag
  /-- STATUS.BUSYERR (R39). -/
  busyErr : Bool
  /-- CMDREG, the last accepted command word (R33, R38). -/
  cmdReg : Word
  /-- IRQ_STATUS.DONE (R40). -/
  done : Bool
  /-- What happens next, oldest first: the model's own field (R61, R249; log entry 4). -/
  pending : List Event
  /-- What the host's reads returned, oldest first (R13): the model's own field (log entry 5). -/
  reads : List Word
  deriving DecidableEq, Repr

/-- Why the machine stops. -/
inductive Fault where
  /-- Raised by a host access at an offset at or above `APERTURE`: such an address does not select the block (R6, R51)
  and the spec gives it no outcome. Safe: the model stops where the platform does something unknown (log entry 2). -/
  | outsideAperture (off : Nat)
  deriving DecidableEq, Repr

/-- Why the machine has no meaning for a command. -/
inductive Refusal where
  /-- Raised by an arm of exec whose command has no meaning yet; no arm does. Safe. -/
  | notModelled (mnemonic : String)
  deriving DecidableEq, Repr

/-- The state after reset, every field at the value R43 gives; the parameters are the spec's defaults (R6, log entries
1 and 2), and nothing is scheduled and nothing has been read (DESIGN CHOICE, log entries 4 and 5). -/
def State.reset : State where
  params := Params.default
  regs := Vector.replicate 8 0
  irqEn := false
  busy := false
  err := false
  errCode := none
  z := false
  cmp := .eq
  busyErr := false
  cmdReg := 0#32
  done := false
  pending := []
  reads := []

end Sys2Proof.Machine
end

