-- ==== Sys2Proof/Machine/Flags.lean ====
section
/-! DEFINITION. The flags a command computes, the codes of STATUS's fields, and the words the status registers read. -/

namespace Sys2Proof.Machine

/-- The zero flag of a command that writes one destination: `value written = 0` (R34). -/
def zeroFlag (v : Nat) : Bool := decide (v = 0)

/-- STATUS.CMP after comparing `a` with `b`, unsigned (R35, R177). -/
def cmpFlag (a b : Nat) : CmpFlag := if a = b then .eq else if a < b then .lt else .gt

/-- The two bits of STATUS.CMP (R35). -/
def CmpFlag.bits : CmpFlag → BitVec 2
  | .eq => 0b00#2
  | .lt => 0b01#2
  | .gt => 0b10#2

/-- The four bits of STATUS.ERRCODE (R210). -/
def errCodeBits : Option CmdError → BitVec 4
  | none => 0#4
  | some .illegalOpcode => 1#4
  | some .badForm => 2#4
  | some .divZero => 3#4
  | some .overflow => 4#4
  | some .noInverse => 5#4

/-- The word a STATUS read returns, most significant field first (R29). -/
def State.statusWord (s : State) : Word :=
  0#15 ++ BitVec.ofBool s.busyErr ++ 0#5 ++ s.cmp.bits ++ BitVec.ofBool s.z ++ errCodeBits s.errCode ++ 0#2
    ++ BitVec.ofBool s.err ++ BitVec.ofBool s.busy

/-- The word a CTRL read returns: IRQ_EN in bit 0, SRST and the reserved bits 0 (R28). -/
def State.ctrlWord (s : State) : Word := (BitVec.ofBool s.irqEn).setWidth 32

/-- The word an IRQ_STATUS read returns: DONE in bit 0, the rest 0 (R40). -/
def State.irqStatusWord (s : State) : Word := (BitVec.ofBool s.done).setWidth 32

/-- The word a PARAM read returns: `{12'b0, 4'd8, (W/32)[15:0]}` (R23, R25). -/
def paramWord (p : Params) : Word := 0#12 ++ BitVec.ofNat 4 nreg ++ BitVec.ofNat 16 p.words

/-- The interrupt output: a level, `CTRL.IRQ_EN AND IRQ_STATUS.DONE` at all times (R41, R217). -/
def State.irq (s : State) : Bool := s.irqEn && s.done

end Sys2Proof.Machine
end

