-- ==== Sys2Proof/Machine/Operands.lean ====
section
/-! DEFINITION. Operand forms (a register, the 16-bit immediate, a signed register value) and the 32-bit words of an
operand register. -/

namespace Sys2Proof.Machine

/-- `R[i]`: the operand register a 3-bit index selects (R9, R20). No register is hardwired and none aliases another. -/
def State.reg (s : State) (r : Reg) : Nat := s.regs[r.toNat]

/-- `2^W`, the first value an operand register cannot hold (R7). -/
def State.bound (s : State) : Nat := 2 ^ s.params.width

/-- The immediate operand `zext_W(imm16)` (R84). -/
def immOperand (imm16 : BitVec 16) : Nat := imm16.toNat

/-- `signed_W(v)` (R11). -/
def signedW (width v : Nat) : Int := if v.testBit (width - 1) then (v : Int) - 2 ^ width else v

/-- `tc_W(s) = s mod 2^W`, the two's-complement encoding (R11). -/
def tcW (width : Nat) (v : Int) : Nat := (v % 2 ^ width).toNat

/-- `a mod b` of an integer, in `[0, b)` for `b > 0`, also for negative `a` (R10). -/
def floorMod (a : Int) (b : Nat) : Nat := (a % (b : Int)).toNat

/-- `v[32*k+31 : 32*k]`, word `k` of an operand register (R52, R53). -/
def windowWord (v k : Nat) : Word := BitVec.ofNat 32 (v / 2 ^ (32 * k))

/-- `v` with its word `k` replaced, every other bit kept (R54, R247). -/
def setWindowWord (v k : Nat) (d : Word) : Nat :=
  v / 2 ^ (32 * k + 32) * 2 ^ (32 * k + 32) + d.toNat * 2 ^ (32 * k) + v % 2 ^ (32 * k)

end Sys2Proof.Machine
end

