-- ==== Sys2Proof/Machine/Ops.lean ====
section
/-! DEFINITION. The named operations on the state: register writes, the completion of a command (with success or with
an error), acceptance, the writes of single fields, reset. -/

namespace Sys2Proof.Machine

/-- `R[i] <- v` (R9). -/
def State.setReg (s : State) (r : Reg) (v : Nat) : State := { s with regs := s.regs.set r.toNat v }

/-- What is still to happen (R61). -/
def State.setPending (s : State) (es : List Event) : State := { s with pending := es }

/-- The host's read returns `v` (R13). -/
def State.pushRead (s : State) (v : Word) : State := { s with reads := s.reads ++ [v] }

/-- CTRL.IRQ_EN is written (R27). -/
def State.setIrqEn (s : State) (b : Bool) : State := { s with irqEn := b }

/-- STATUS.BUSYERR is set (R39) or cleared (R30). -/
def State.setBusyErr (s : State) (b : Bool) : State := { s with busyErr := b }

/-- IRQ_STATUS.DONE is cleared by the host (R40): how a host returns from its interrupt (R220). -/
def State.clearDone (s : State) : State := { s with done := false }

/-- What `execute` gives for a command that succeeds: its register writes and its flag writes, `none` where the
command leaves the flag unchanged (R212). -/
structure Effect where
  writes : List (Reg × Nat)
  z : Option Bool
  cmp : Option CmpFlag
  deriving DecidableEq, Repr

/-- The outcome of `execute`: the error, or the writes (R212). -/
abbrev CmdResult := Except CmdError Effect

/-- Every register write of a command, in order; all sources were read before (R110, R212). -/
def State.writeRegs (s : State) : List (Reg × Nat) → State
  | [] => s
  | (r, v) :: ws => State.writeRegs (s.setReg r v) ws

/-- A successful completion: all the writes, then BUSY falls and DONE rises; ERR and ERRCODE stay as acceptance left
them (R32, R212). -/
def State.finish (s : State) (e : Effect) : State :=
  { s.writeRegs e.writes with z := e.z.getD s.z, cmp := e.cmp.getD s.cmp, busy := false, done := true }

/-- A completion with an error, the block's whole exception mechanism: the code goes to STATUS, no operand register, Z
or CMP is written, the failing word stays in CMDREG, and nothing else is saved, switched or redirected (R213, R219). -/
def State.raiseError (s : State) (c : CmdError) : State :=
  { s with err := true, errCode := some c, busy := false, done := true }

/-- Completion: one indivisible step that writes everything or, on an error, nothing (R212, R214). -/
def State.complete (s : State) : CmdResult → State
  | .ok e => s.finish e
  | .error c => s.raiseError c

/-- The effect of a command with one destination: Z says whether the value written is 0 (R34). -/
def oneDest (rd : Reg) (v : Nat) : Effect := { writes := [(rd, v)], z := some (zeroFlag v), cmp := none }

/-- The effect of a command with two destinations, whose own rule gives Z (R34). -/
def twoDest (rd rd2 : Reg) (v v2 : Nat) (z : Bool) : Effect :=
  { writes := [(rd, v), (rd2, v2)], z := some z, cmp := none }

/-- The value `r` in `[0, m)` of a modular command, or DIV_ZERO for a zero modulus (R110). -/
def modResult (rd : Reg) (m : Nat) (r : Nat) : CmdResult :=
  if m = 0 then .error .divZero else .ok (oneDest rd r)

/-- The acceptance of a command word (R36): no check of the word is made. -/
def State.accept (s : State) (w : Word) : State :=
  { s with cmdReg := w, busy := true, err := false, errCode := none, done := false }

/-- A reset of the block, hardware or soft: every piece of its state to the value of R43, a command in progress
abandoned (R241). The parameters are fixed; what the host does next and what it has read are not the block's. -/
def State.resetBlock (s : State) : State :=
  { State.reset with params := s.params, pending := s.pending, reads := s.reads }

end Sys2Proof.Machine
end

