-- ==== Sys2Proof/Machine/Bus.lean ====
section
/-! DEFINITION. The register interface: the address map, and what a host read or write does (R23 to R41, R50 to R60). -/

namespace Sys2Proof.Machine

/-- What an offset of the register interface selects (R51). -/
inductive Target where
  /-- `0x000`. -/
  | id
  /-- `0x004`. -/
  | ctrl
  /-- `0x008`. -/
  | status
  /-- `0x00C`. -/
  | cmd
  /-- `0x010`. -/
  | irqStatus
  /-- `0x014`. -/
  | param
  /-- Word `k` of operand register `r` (R52). -/
  | window (r : Reg) (k : Nat)
  /-- Every other offset below `APERTURE` (R58). -/
  | unmapped
  deriving DecidableEq, Repr

/-- The address map of R51; a window offset decodes as R52 says. -/
def locate (p : Params) (off : Nat) : Target :=
  if off = 0x000 then .id
  else if off = 0x004 then .ctrl
  else if off = 0x008 then .status
  else if off = 0x00C then .cmd
  else if off = 0x010 then .irqStatus
  else if off = 0x014 then .param
  else if 0x1000 ≤ off ∧ off < 0x1000 + p.width then
    .window (BitVec.ofNat 3 ((off - 0x1000) / p.regBytes)) ((off - 0x1000) % p.regBytes / 4)
  else .unmapped

/-- The block takes only 32-bit accesses at multiples of 4 and ignores every other one (R57). -/
def accessTaken (off size : Nat) : Bool := size == 4 && off % 4 == 0

/-- The word a read of a target returns. A window read while a command is in progress returns 0 (R55). -/
def readWord (s : State) : Target → Word
  | .id => s.params.idValue
  | .ctrl => s.ctrlWord
  | .status => s.statusWord
  | .cmd => s.cmdReg
  | .irqStatus => s.irqStatusWord
  | .param => paramWord s.params
  | .window r k => if s.busy then 0#32 else windowWord (s.reg r) k
  | .unmapped => 0#32

/-- The side effect of a read: a window read while a command is in progress sets BUSYERR, no other read has one
(R55, R60). -/
def readEffect (s : State) : Target → State
  | .window _ _ => if s.busy then s.setBusyErr true else s
  | .id => s
  | .ctrl => s
  | .status => s
  | .cmd => s
  | .irqStatus => s
  | .param => s
  | .unmapped => s

/-- The effect of a 32-bit write of a target. -/
def writeTarget (s : State) (d : Word) : Target → State
  -- A write to ID or PARAM is ignored (R24, R25).
  | .id => s
  | .param => s
  -- Bit 1 performs the soft reset and bit 0 is then ignored; else bit 0 goes to IRQ_EN (R27).
  | .ctrl => if d.getLsbD 1 then s.resetBlock else s.setIrqEn (d.getLsbD 0)
  -- Bit 16 is write-one-to-clear (R30).
  | .status => if d.getLsbD 16 then s.setBusyErr false else s
  -- Accepted while idle (R36), dropped while a command is in progress (R37).
  | .cmd => if s.busy then s.setBusyErr true else s.accept d
  -- Bit 0 is write-one-to-clear (R40).
  | .irqStatus => if d.getLsbD 0 then s.clearDone else s
  -- Written while idle (R54), dropped while a command is in progress (R55).
  | .window r k => if s.busy then s.setBusyErr true else s.setReg r (setWindowWord (s.reg r) k d)
  | .unmapped => s

/-- `MemRead(off, size)`: an ignored access returns 0 and does nothing else (R57). -/
def hostRead (s : State) (off size : Nat) : State :=
  if accessTaken off size then
    (readEffect s (locate s.params off)).pushRead (readWord s (locate s.params off))
  else s.pushRead 0#32

/-- `MemWrite(off, size, d)`: an ignored access changes nothing (R57). -/
def hostWrite (s : State) (off size : Nat) (d : Word) : State :=
  if accessTaken off size then writeTarget s d (locate s.params off) else s

/-- One host access. An offset at or above `APERTURE` does not select the block (R6; log entry 2). -/
def hostAccess (s : State) : Access → Host.Outcome State Fault Refusal
  | .read off size =>
    if off < s.params.aperture then .next (hostRead s off size) else .fault (.outsideAperture off)
  | .write off size d =>
    if off < s.params.aperture then .next (hostWrite s off size d) else .fault (.outsideAperture off)

end Sys2Proof.Machine
end

