-- ==== Sys2Proof/Machine/Alu.lean ====
section
/-! DEFINITION. The big-integer arithmetic ALU: NOP, MOV, MOVI, ADD, SUB, DIVMOD, CMP, SMOD, SREMAP (R170 to R179). -/

namespace Sys2Proof.Machine

/-- NOP (R171): completes and writes no register and no flag. -/
def execNop (s : State) : Host.Outcome State Fault Refusal :=
  .next (s.complete (.ok { writes := [], z := none, cmp := none }))

/-- MOV (R172). -/
def execMov (rd rs1 : Reg) (s : State) : Host.Outcome State Fault Refusal :=
  .next (s.complete (.ok (oneDest rd (s.reg rs1))))

/-- MOVI (R173): all `W` bits are written, those above the immediate with 0. -/
def execMovi (rd : Reg) (imm16 : BitVec 16) (s : State) : Host.Outcome State Fault Refusal :=
  .next (s.complete (.ok (oneDest rd (immOperand imm16))))

/-- ADD (R174): exact or OVERFLOW, never a wrap (R170). -/
def execAdd (rd rs1 rs2 : Reg) (s : State) : Host.Outcome State Fault Refusal :=
  .next (s.complete (
    if s.bound ≤ s.reg rs1 + s.reg rs2 then .error .overflow else .ok (oneDest rd (s.reg rs1 + s.reg rs2))))

/-- SUB (R175): exact or OVERFLOW, never a wrap (R170). -/
def execSub (rd rs1 rs2 : Reg) (s : State) : Host.Outcome State Fault Refusal :=
  .next (s.complete (
    if s.reg rs1 < s.reg rs2 then .error .overflow else .ok (oneDest rd (s.reg rs1 - s.reg rs2))))

/-- DIVMOD (R176): BAD_FORM for `rd = rd2`, then DIV_ZERO; Z says that quotient and remainder are both 0. -/
def execDivmod (rd rd2 rs1 rs2 : Reg) (s : State) : Host.Outcome State Fault Refusal :=
  .next (s.complete (
    if rd = rd2 then .error .badForm
    else if s.reg rs2 = 0 then .error .divZero
    else
      let q := s.reg rs1 / s.reg rs2
      let r := s.reg rs1 % s.reg rs2
      .ok (twoDest rd rd2 q r (zeroFlag q && zeroFlag r))))

/-- CMP (R177): unsigned; writes CMP and Z and no register. -/
def execCmp (rs1 rs2 : Reg) (s : State) : Host.Outcome State Fault Refusal :=
  .next (s.complete (.ok {
    writes := [], z := some (decide (s.reg rs1 = s.reg rs2)), cmp := some (cmpFlag (s.reg rs1) (s.reg rs2)) }))

/-- SMOD (R178): the residue in `[0, b)` of a signed value. -/
def execSmod (rd rs1 rs2 : Reg) (s : State) : Host.Outcome State Fault Refusal :=
  .next (s.complete (modResult rd (s.reg rs2) (floorMod (signedW s.params.width (s.reg rs1)) (s.reg rs2))))

/-- The signed value of R179: `v - b` when `2*v > b`, else `v`, for `v = a mod b`. -/
def signedRemap (a b : Nat) : Int :=
  if 2 * (a % b) > b then ((a % b : Nat) : Int) - (b : Int) else ((a % b : Nat) : Int)

/-- SREMAP (R179): writes the two's complement of the remapped value; Z says that the remapped value is 0. -/
def execSremap (rd rs1 rs2 : Reg) (s : State) : Host.Outcome State Fault Refusal :=
  .next (s.complete (
    if s.reg rs2 = 0 then .error .divZero
    else
      let v := signedRemap (s.reg rs1) (s.reg rs2)
      .ok { writes := [(rd, tcW s.params.width v)], z := some (decide (v = 0)), cmp := none }))

end Sys2Proof.Machine
end

