-- ==== Sys2Proof/Machine/Gcd.lean ====
section
/-! DEFINITION. The gcd / extended-Euclid unit: GCD, MODINV, LCM (R150 to R153). -/

namespace Sys2Proof.Machine

/-- The coefficients `(x, y)` of `x*a + y*b = gcd(a, b)` by the extended Euclidean algorithm; the first argument bounds
the number of divisions and exceeds `b` where it is used. -/
def bezout : Nat → Nat → Nat → Int × Int
  | 0, _, _ => (1, 0)
  | k + 1, a, b =>
    if b = 0 then (1, 0)
    else
      let c := bezout k b (a % b)
      (c.2, c.1 - (a / b : Nat) * c.2)

/-- The integer `x` in `[0, m)` with `(a * x) mod m = 1 mod m`, for `gcd(a, m) = 1` and `m >= 1` (R152). Only the value is
specified, and it is unique (R150); Sys2Proof.Laws.modInverse_spec proves the property (log entry 14). -/
def modInverse (a m : Nat) : Nat := floorMod (bezout (m + 1) a m).1 m

/-- GCD (R151): `gcd(a, 0) = a` and `gcd(0, 0) = 0` (R10). -/
def execGcd (rd rs1 rs2 : Reg) (s : State) : Host.Outcome State Fault Refusal :=
  .next (s.complete (.ok (oneDest rd (Nat.gcd (s.reg rs1) (s.reg rs2)))))

/-- MODINV (R152): DIV_ZERO is checked before NO_INVERSE (R211). -/
def execModinv (rd rs1 rs2 : Reg) (s : State) : Host.Outcome State Fault Refusal :=
  .next (s.complete (
    if s.reg rs2 = 0 then .error .divZero
    else if Nat.gcd (s.reg rs1) (s.reg rs2) ≠ 1 then .error .noInverse
    else .ok (oneDest rd (modInverse (s.reg rs1) (s.reg rs2)))))

/-- LCM (R153): DIV_ZERO for two zeros is checked before OVERFLOW (R211). -/
def execLcm (rd rs1 rs2 : Reg) (s : State) : Host.Outcome State Fault Refusal :=
  .next (s.complete (
    if s.reg rs1 = 0 ∧ s.reg rs2 = 0 then .error .divZero
    else
      let l := s.reg rs1 * s.reg rs2 / Nat.gcd (s.reg rs1) (s.reg rs2)
      if s.bound ≤ l then .error .overflow else .ok (oneDest rd l)))

end Sys2Proof.Machine
end

