-- ==== Sys2Proof/Machine/ModExp.lean ====
section
/-! DEFINITION. The modular exponentiation engine: MODEXP (R140). -/

namespace Sys2Proof.Machine

/-- `(a ^ e) mod m` by squaring, so that exponents up to `2^W - 1` can be run; the first argument bounds the number of
halvings and is at least `e` where it is used. Sys2Proof.Laws.powModAux_eq proves it equal to R140's expression
(log entry 14). -/
def powModAux (a m : Nat) : Nat → Nat → Nat
  | 0, _ => 1 % m
  | k + 1, e =>
    if e = 0 then 1 % m
    else
      let h := powModAux a m k (e / 2)
      if e % 2 = 1 then h * h % m * a % m else h * h % m

/-- `(a ^ e) mod m`, exact, with `a ^ 0 = 1` for every `a` (R10, R140). -/
def powMod (a e m : Nat) : Nat := powModAux a m e e

/-- MODEXP (R140): base `rs1`, exponent `rs2`, modulus `rs3`. -/
def execModexp (rd rs1 rs2 rs3 : Reg) (s : State) : Host.Outcome State Fault Refusal :=
  .next (s.complete (modResult rd (s.reg rs3) (powMod (s.reg rs1) (s.reg rs2) (s.reg rs3))))

end Sys2Proof.Machine
end

