-- ==== Sys2Proof/Machine/ModMul.lean ====
section
/-! DEFINITION. The modular multiplier unit: MUL, MODMUL, MOD, MODADD, MODSUB (R110 to R115). -/

namespace Sys2Proof.Machine

/-- MUL (R111): the low and high halves of the exact product; BAD_FORM for `rd = rd2`, before any register is read. -/
def execMul (rd rd2 rs1 rs2 : Reg) (s : State) : Host.Outcome State Fault Refusal :=
  .next (s.complete (
    if rd = rd2 then .error .badForm
    else
      let p := s.reg rs1 * s.reg rs2
      .ok (twoDest rd rd2 (p % s.bound) (p / s.bound) (zeroFlag p))))

/-- MODMUL (R112): the exact residue of the exact product. -/
def execModmul (rd rs1 rs2 rs3 : Reg) (s : State) : Host.Outcome State Fault Refusal :=
  .next (s.complete (modResult rd (s.reg rs3) (s.reg rs1 * s.reg rs2 % s.reg rs3)))

/-- MOD (R113): the residue of an unsigned value. -/
def execMod (rd rs1 rs2 : Reg) (s : State) : Host.Outcome State Fault Refusal :=
  .next (s.complete (modResult rd (s.reg rs2) (s.reg rs1 % s.reg rs2)))

/-- MODADD (R114): the residue of the exact sum. -/
def execModadd (rd rs1 rs2 rs3 : Reg) (s : State) : Host.Outcome State Fault Refusal :=
  .next (s.complete (modResult rd (s.reg rs3) ((s.reg rs1 + s.reg rs2) % s.reg rs3)))

/-- MODSUB (R115): the residue in `[0, m)` of the exact difference, which may be negative. -/
def execModsub (rd rs1 rs2 rs3 : Reg) (s : State) : Host.Outcome State Fault Refusal :=
  .next (s.complete (modResult rd (s.reg rs3) (floorMod ((s.reg rs1 : Int) - (s.reg rs2 : Int)) (s.reg rs3))))

end Sys2Proof.Machine
end

