-- ==== Sys2Proof/Machine/Dispatch.lean ====
section
/-! DEFINITION. One arm per command: the completion of a decoded command (R90, R212). -/

namespace Sys2Proof.Machine

/-- The rule of R85 for the command. -/
def exec (i : Instr) (s : State) : Host.Outcome State Fault Refusal :=
  match i with
  | .nop => Sys2Proof.Machine.execNop s
  | .mul rd rd2 rs1 rs2 => Sys2Proof.Machine.execMul rd rd2 rs1 rs2 s
  | .modmul rd rs1 rs2 rs3 => Sys2Proof.Machine.execModmul rd rs1 rs2 rs3 s
  | .mod rd rs1 rs2 => Sys2Proof.Machine.execMod rd rs1 rs2 s
  | .modadd rd rs1 rs2 rs3 => Sys2Proof.Machine.execModadd rd rs1 rs2 rs3 s
  | .modsub rd rs1 rs2 rs3 => Sys2Proof.Machine.execModsub rd rs1 rs2 rs3 s
  | .modexp rd rs1 rs2 rs3 => Sys2Proof.Machine.execModexp rd rs1 rs2 rs3 s
  | .gcd rd rs1 rs2 => Sys2Proof.Machine.execGcd rd rs1 rs2 s
  | .modinv rd rs1 rs2 => Sys2Proof.Machine.execModinv rd rs1 rs2 s
  | .lcm rd rs1 rs2 => Sys2Proof.Machine.execLcm rd rs1 rs2 s
  | .mov rd rs1 => Sys2Proof.Machine.execMov rd rs1 s
  | .movi rd imm16 => Sys2Proof.Machine.execMovi rd imm16 s
  | .add rd rs1 rs2 => Sys2Proof.Machine.execAdd rd rs1 rs2 s
  | .sub rd rs1 rs2 => Sys2Proof.Machine.execSub rd rs1 rs2 s
  | .divmod rd rd2 rs1 rs2 => Sys2Proof.Machine.execDivmod rd rd2 rs1 rs2 s
  | .cmp rs1 rs2 => Sys2Proof.Machine.execCmp rs1 rs2 s
  | .smod rd rs1 rs2 => Sys2Proof.Machine.execSmod rd rs1 rs2 s
  | .sremap rd rs1 rs2 => Sys2Proof.Machine.execSremap rd rs1 rs2 s

end Sys2Proof.Machine
end

