-- ==== Sys2Proof/Machine/Engine.lean ====
section
/-! DEFINITION. The engine's one step, and what each event of the schedule does. -/

namespace Sys2Proof.Machine

/-- The engine's turn: while BUSY = 1 it completes the command in CMDREG, with the decoder's error or by the command's
rule (R90, R212); while BUSY = 0 it has no step and the block stays as it is (R33, R235; log entry 13). -/
def engineTurn (s : State) : Host.Outcome State Fault Refusal :=
  if s.busy then
    match decode s.cmdReg with
    | .ok i => exec i s
    | .error c => .next (s.raiseError c)
  else .next s

/-- One event of the total order of R61. -/
def runEvent (s : State) : Event → Host.Outcome State Fault Refusal
  | .host a => hostAccess s a
  | .engine => engineTurn s
  | .hardReset => .next s.resetBlock

/-- The next event happens. When the schedule has run out the engine has its turn, so that a command in progress
completes (R250) and an idle block rests (R13, R235). -/
def nextEvent (s : State) : Host.Outcome State Fault Refusal :=
  match s.pending with
  | [] => engineTurn s
  | e :: es => runEvent (s.setPending es) e

/-- `w` accepted as by a CMD write (R36), and the engine's turn put first (log entry 8). -/
def placeCommand (s : State) (w : Word) : State := (s.accept w).setPending (.engine :: s.pending)

end Sys2Proof.Machine
end

