-- ==== Sys2Proof/Machine/Step.lean ====
section
/-! DEFINITION. One step of the block, and a command placed so that the very next step runs it. -/

namespace Sys2Proof.Machine

/-- One step: one host access, one completion or one reset (R61). -/
def step (s : State) : Host.Outcome State Fault Refusal := nextEvent s

/-- The state in which the next step runs the command word whose bits are `w`: the block fetches nothing (R3), a command
comes to it by acceptance, so this is `s` after a host write of the word to CMD with the engine's turn scheduled next
(log entry 8). -/
def State.withFetchWord (s : State) (nbits w : Nat) : State := placeCommand s (BitVec.ofNat 32 (w % 2 ^ nbits))

end Sys2Proof.Machine
end

