-- ==== Sys2Proof/WellFormed.lean ====
section
/-! DEFINITION. When a command is well formed: the one form check on fields that decoding a field cannot make (R89). -/

namespace Sys2Proof

/-- R89: MUL and DIVMOD need two different destinations; every other command is well formed at every value of its
fields, since every register field names a register (R83) and `imm16` is any 16-bit value (R84). -/
def Instr.wellFormed : Instr → Bool
  | .nop => true
  | .mul rd rd2 _ _ => rd != rd2
  | .modmul _ _ _ _ => true
  | .mod _ _ _ => true
  | .modadd _ _ _ _ => true
  | .modsub _ _ _ _ => true
  | .modexp _ _ _ _ => true
  | .gcd _ _ _ => true
  | .modinv _ _ _ => true
  | .lcm _ _ _ => true
  | .mov _ _ => true
  | .movi _ _ => true
  | .add _ _ _ => true
  | .sub _ _ _ => true
  | .divmod rd rd2 _ _ => rd != rd2
  | .cmp _ _ => true
  | .smod _ _ _ => true
  | .sremap _ _ _ => true

end Sys2Proof
end

