-- ==== Sys2Proof/Safety.lean ====
section
/-! DEFINITION. The terms claims are stated in: the invariant of the block, what a completion leaves, what an event is. -/

namespace Sys2Proof.Machine

/-- Every operand register holds an integer in `[0, 2^W)` (R7). -/
abbrev State.RegsInRange (s : State) : Prop := ∀ r : Reg, s.reg r < s.bound

/-- `ERR = 1` if and only if `ERRCODE != 0` (R32). -/
abbrev State.ErrCoherent (s : State) : Prop := s.err = true ↔ s.errCode ≠ none

/-- While a command is in progress ERR, ERRCODE and DONE are as acceptance left them (R31, R32, R36, R40). -/
abbrev State.BusyCoherent (s : State) : Prop :=
  s.busy = true → s.err = false ∧ s.errCode = none ∧ s.done = false

/-- The invariant of the block: legal parameters (R6), registers in range (R7), a coherent STATUS (R32, R36). -/
abbrev State.Inv (s : State) : Prop :=
  s.params.Legal ∧ s.RegsInRange ∧ s.ErrCoherent ∧ s.BusyCoherent

/-- What every completion does and leaves alone: BUSY falls, DONE rises, and the parameters, IRQ_EN, BUSYERR, CMDREG,
the schedule and the host's record of reads stay (R212, R214, R215). The block has no memory (R50), so there is no byte
of memory to name. -/
def CompletionFrame (s t : State) : Prop :=
  t.busy = false ∧ t.done = true ∧ t.params = s.params ∧ t.irqEn = s.irqEn ∧ t.busyErr = s.busyErr ∧
  t.cmdReg = s.cmdReg ∧ t.pending = s.pending ∧ t.reads = s.reads

/-- `t` is `s` after a successful completion that writes exactly the registers of `ws`, and leaves `z` and `c` in
STATUS.Z and STATUS.CMP (R212). -/
def SuccessfulCompletion (s : State) (ws : List (Reg × Nat)) (z : Bool) (c : CmpFlag) (t : State) : Prop :=
  CompletionFrame s t ∧ t.err = s.err ∧ t.errCode = s.errCode ∧ t.z = z ∧ t.cmp = c ∧
  (∀ r v, (r, v) ∈ ws → t.reg r = v) ∧ ∀ r, (∀ v, (r, v) ∉ ws) → t.reg r = s.reg r

/-- `t` is `s` after a completion with error `c`: no operand register, Z or CMP is written (R213). -/
def ErrorCompletion (s : State) (c : CmdError) (t : State) : Prop :=
  CompletionFrame s t ∧ t.err = true ∧ t.errCode = some c ∧ t.z = s.z ∧ t.cmp = s.cmp ∧ ∀ r, t.reg r = s.reg r

/-- The command completes and writes exactly `ws`, Z and CMP. -/
def Succeeds (i : Instr) (s : State) (ws : List (Reg × Nat)) (z : Bool) (c : CmpFlag) : Prop :=
  ∃ t, exec i s = .next t ∧ SuccessfulCompletion s ws z c t

/-- The command completes with error `c`. -/
def FailsWith (i : Instr) (s : State) (c : CmdError) : Prop := ∃ t, exec i s = .next t ∧ ErrorCompletion s c t

/-- The next event of `s` is the engine's turn, and `s0` is `s` with that event taken off the schedule. -/
def EngineNext (s s0 : State) : Prop :=
  (s.pending = [] ∧ s0 = s) ∨ ∃ es, s.pending = .engine :: es ∧ s0 = s.setPending es

/-- The next event of `s` resets the block: the `rst_n` input, or a host write to CTRL with bit 1 set (R240). -/
def ResetNext (s : State) : Prop :=
  ∃ es, s.pending = .hardReset :: es ∨ ∃ d : Word, d.getLsbD 1 = true ∧ s.pending = .host (.write 0x004 4 d) :: es

/-- The next event of `s` is the host access `a`. -/
def HostNext (s : State) (a : Access) : Prop := ∃ es, s.pending = .host a :: es

/-- `WIN(r) + 4*k`, the offset of word `k` of register `r` (R52). -/
def windowOffset (p : Params) (r : Reg) (k : Nat) : Nat := 0x1000 + r.toNat * (p.width / 8) + 4 * k

/-- The value of every piece of the block's state after a reset (R43). -/
def HasResetValues (t : State) : Prop :=
  (∀ r : Reg, t.reg r = 0) ∧ t.irqEn = false ∧ t.busy = false ∧ t.err = false ∧ t.errCode = none ∧ t.z = false ∧
  t.cmp.bits = 0b00#2 ∧ t.busyErr = false ∧ t.cmdReg = 0x00000000#32 ∧ t.done = false ∧ t.irq = false

/-- The registers a command names as destinations (R86). -/
def destsOf : Instr → List Reg
  | .nop => []
  | .mul rd rd2 _ _ => [rd, rd2]
  | .modmul rd _ _ _ => [rd]
  | .mod rd _ _ => [rd]
  | .modadd rd _ _ _ => [rd]
  | .modsub rd _ _ _ => [rd]
  | .modexp rd _ _ _ => [rd]
  | .gcd rd _ _ => [rd]
  | .modinv rd _ _ => [rd]
  | .lcm rd _ _ => [rd]
  | .mov rd _ => [rd]
  | .movi rd _ => [rd]
  | .add rd _ _ => [rd]
  | .sub rd _ _ => [rd]
  | .divmod rd rd2 _ _ => [rd, rd2]
  | .cmp _ _ => []
  | .smod rd _ _ => [rd]
  | .sremap rd _ _ => [rd]

/-- The 18 assigned opcodes, in the order of R90. -/
def assignedOpcodes : List (BitVec 8) :=
  [0x00, 0x10, 0x11, 0x12, 0x13, 0x14, 0x20, 0x30, 0x31, 0x32, 0x40, 0x41, 0x42, 0x43, 0x44, 0x45, 0x46, 0x47]

/-- `op | rd<<8 | rd2<<11 | rs1<<14 | rs2<<17 | rs3<<20`, the word of format R as R81 writes it. -/
def formatRWord (op : Nat) (rd rd2 rs1 rs2 rs3 : Reg) : Word :=
  BitVec.ofNat 32 (op ||| rd.toNat <<< 8 ||| rd2.toNat <<< 11 ||| rs1.toNat <<< 14 ||| rs2.toNat <<< 17
    ||| rs3.toNat <<< 20)

/-- `op | rd<<8 | imm16<<16`, the word of format I as R82 writes it. -/
def formatIWord (op : Nat) (rd : Reg) (imm16 : BitVec 16) : Word :=
  BitVec.ofNat 32 (op ||| rd.toNat <<< 8 ||| imm16.toNat <<< 16)

/-- Every word with opcode `op` selects the command `f rd rd2 rs1 rs2 rs3` of its fields when its reserved bits are 0, and
is BAD_FORM when they are not (R81, R83, R87). -/
def SelectedByFormatR (op : BitVec 8) (f : Reg → Reg → Reg → Reg → Reg → Instr) : Prop :=
  ∀ w : Word, w.extractLsb' 0 8 = op →
    (w.extractLsb' 23 9 = 0#9 → decode w = .ok (f (w.extractLsb' 8 3) (w.extractLsb' 11 3) (w.extractLsb' 14 3)
      (w.extractLsb' 17 3) (w.extractLsb' 20 3))) ∧
    (w.extractLsb' 23 9 ≠ 0#9 → decode w = .error .badForm)

/-- The bits of a command word that the command reads: opcode, reserved bits and the fields R86 names for it. -/
def usedBits : Instr → Word
  | .nop => 0xFF8000FF#32
  | .mul _ _ _ _ => 0xFF8FFFFF#32
  | .modmul _ _ _ _ => 0xFFFFC7FF#32
  | .mod _ _ _ => 0xFF8FC7FF#32
  | .modadd _ _ _ _ => 0xFFFFC7FF#32
  | .modsub _ _ _ _ => 0xFFFFC7FF#32
  | .modexp _ _ _ _ => 0xFFFFC7FF#32
  | .gcd _ _ _ => 0xFF8FC7FF#32
  | .modinv _ _ _ => 0xFF8FC7FF#32
  | .lcm _ _ _ => 0xFF8FC7FF#32
  | .mov _ _ => 0xFF81C7FF#32
  | .movi _ _ => 0xFFFFFFFF#32
  | .add _ _ _ => 0xFF8FC7FF#32
  | .sub _ _ _ => 0xFF8FC7FF#32
  | .divmod _ _ _ _ => 0xFF8FFFFF#32
  | .cmp _ _ => 0xFF8FC0FF#32
  | .smod _ _ _ => 0xFF8FC7FF#32
  | .sremap _ _ _ => 0xFF8FC7FF#32

end Sys2Proof.Machine
end

