-- ==== Sys2Proof/Certificates/Slice0/Obligations.lean ====
section
/-! DEFINITION. The statements for the provers, in the order: decoding, the engine's step, who may write what, the
invariant and reset, the register interface, the 18 commands. -/

open Sys2Proof Sys2Proof.Machine

/-! ## Decoding -/

/-- R81, R82, R85, R91: no bit of a command's encoding is dropped. It holds for the ill-formed `rd = rd2` forms too. -/
def Obligations.DecodeEncodeRoundTrip : Prop := ∀ i : Instr, decode (encode i) = .ok i

/-- R83, R86: a decoded command is given by the bits R86 names for it, and any value in the other bits is legal. -/
def Obligations.UnusedFieldsIgnored : Prop :=
  ∀ (w : Word) (i : Instr), decode w = .ok i →
    encode i = w &&& usedBits i ∧ ∀ w' : Word, w' &&& usedBits i = w &&& usedBits i → decode w' = .ok i

/-- Words of the worked examples of R111 to R179, one or more of every family. -/
def Obligations.SpecWordsDecode : Prop :=
  decode 0x00022A10#32 = .ok (.mul 2 5 0 1) ∧ decode 0x003E0011#32 = .ok (.modmul 0 0 7 3) ∧
  decode 0x00418314#32 = .ok (.modsub 3 6 0 4) ∧ decode 0x00310020#32 = .ok (.modexp 0 4 0 3) ∧
  decode 0x00054631#32 = .ok (.modinv 6 5 2) ∧ decode 0x00020532#32 = .ok (.lcm 5 0 1) ∧
  decode 0x00010741#32 = .ok (.movi 7 1) ∧ decode 0x00043844#32 = .ok (.divmod 0 7 0 2) ∧
  decode 0x000F8045#32 = .ok (.cmp 6 7) ∧ decode 0x007FFF00#32 = .ok .nop

/-- R90, the whole procedure run at completion on `w = CMDREG`: the checks in their order, then the command of the
opcode, with the fields the word gives it, executes. -/
def Obligations.DecodingProcedureAtCompletion : Prop :=
  ∀ s s0 : State, EngineNext s s0 → s.busy = true →
    let w := s.cmdReg
    let op := w.extractLsb' 0 8
    if op ∉ assignedOpcodes then ∃ t, step s = .next t ∧ ErrorCompletion s0 .illegalOpcode t
    else if op = 0x41#8 ∧ w.extractLsb' 11 5 ≠ 0#5 then ∃ t, step s = .next t ∧ ErrorCompletion s0 .badForm t
    else if op ≠ 0x41#8 ∧ w.extractLsb' 23 9 ≠ 0#9 then ∃ t, step s = .next t ∧ ErrorCompletion s0 .badForm t
    else if (op = 0x10#8 ∨ op = 0x44#8) ∧ w.extractLsb' 8 3 = w.extractLsb' 11 3 then
      ∃ t, step s = .next t ∧ ErrorCompletion s0 .badForm t
    else ∃ i, encode i = w &&& usedBits i ∧ i.wellFormed = true ∧ step s = exec i s0

/-! ## The engine's step -/

/-- R90, R212: with a command in progress and the engine's turn next, the step is the decoded command's execution on the
state with that turn taken off the schedule. Nothing else is around it: there is no program counter to move (R3). -/
def Obligations.StepRunsDecodedCommand : Prop :=
  ∀ (s s0 : State) (i : Instr), EngineNext s s0 → s.busy = true → decode s.cmdReg = .ok i → step s = exec i s0

/-- R33, R235: with no command in progress the engine's turn changes nothing (the model's stutter, log entry 13). -/
def Obligations.IdleEngineHasNoStep : Prop :=
  ∀ s s0 : State, EngineNext s s0 → s.busy = false → step s = .next s0

/-- R212: `execute` is total: every command completes on every state, with BUSY cleared, DONE set, and the frame kept. -/
def Obligations.EveryCommandCompletes : Prop :=
  ∀ (i : Instr) (s : State), ∃ t, exec i s = .next t ∧ CompletionFrame s t

/-- R213: a completion that ends with an error writes no operand register, Z or CMP, and leaves the state a NOP would
leave, except for ERR and ERRCODE. The premise on ERR is what acceptance ensures (R36; kept by StepKeepsInvariant). -/
def Obligations.ErrorCompletionIsPrecise : Prop :=
  ∀ s s0 t : State, EngineNext s s0 → s.busy = true → s.err = false → step s = .next t → t.err = true →
    ∃ c u, ErrorCompletion s0 c t ∧ exec .nop s0 = .next u ∧ t = { u with err := true, errCode := some c }

/-- R212: `execute` is a function of the command and the register file alone (at one width). States with the same
registers and width, whatever else they hold, complete with one and the same result (the error, or the register writes and
flag writes), and so get the same registers; a flag can differ afterwards only if it differed before. -/
def Obligations.ExecuteDependsOnRegistersAlone : Prop :=
  ∀ (i : Instr) (s s' : State), s.regs = s'.regs → s.params.words = s'.params.words →
    ∃ (r : CmdResult) (t t' : State), exec i s = .next t ∧ exec i s' = .next t' ∧
      t = s.complete r ∧ t' = s'.complete r ∧ t.regs = t'.regs ∧
      (s.z = s'.z → t.z = t'.z) ∧ (s.cmp = s'.cmp → t.cmp = t'.cmp) ∧
      (s.err = s'.err → s.errCode = s'.errCode → t.err = t'.err ∧ t.errCode = t'.errCode)

/-! ## Who may write what -/

/-- R21: an operand register changes by a host write of one of its window words while idle, by the successful completion
of a command that names it as a destination, or by reset, and by nothing else. -/
def Obligations.OperandRegisterWriters : Prop :=
  ∀ (s t : State) (r : Reg), step s = .next t → t.reg r ≠ s.reg r →
    (s.busy = false ∧ ∃ k d, k < s.params.words ∧ HostNext s (.write (windowOffset s.params r k) 4 d)) ∨
    (s.busy = true ∧ (∃ s0, EngineNext s s0) ∧ t.err = s.err ∧ t.errCode = s.errCode ∧
      ∃ i, decode s.cmdReg = .ok i ∧ r ∈ destsOf i) ∨
    ResetNext s

/-- R35: STATUS.CMP is written by no command but CMP; apart from it only reset changes the field. -/
def Obligations.CmpFlagWriters : Prop :=
  ∀ s t : State, step s = .next t → t.cmp ≠ s.cmp →
    (s.busy = true ∧ (∃ s0, EngineNext s s0) ∧ ∃ rs1 rs2, decode s.cmdReg = .ok (.cmp rs1 rs2)) ∨ ResetNext s

/-- R34: STATUS.Z changes only when a command other than NOP completes successfully, or by reset. -/
def Obligations.ZeroFlagWriters : Prop :=
  ∀ s t : State, step s = .next t → t.z ≠ s.z →
    (s.busy = true ∧ (∃ s0, EngineNext s s0) ∧ t.err = s.err ∧ t.errCode = s.errCode ∧
      ∃ i, decode s.cmdReg = .ok i ∧ i ≠ .nop) ∨ ResetNext s

/-- R32: ERR and ERRCODE change only at an acceptance, which clears both, at a completion with an error, which sets both,
or by reset. -/
def Obligations.ErrorCodeWriters : Prop :=
  ∀ s t : State, step s = .next t → t.err ≠ s.err ∨ t.errCode ≠ s.errCode →
    (s.busy = false ∧ (∃ d, HostNext s (.write 0x00C 4 d)) ∧ t.err = false ∧ t.errCode = none) ∨
    (s.busy = true ∧ (∃ s0, EngineNext s s0) ∧ t.err = true ∧ t.errCode ≠ none) ∨
    ResetNext s

/-- R31: BUSY rises only at an acceptance and falls only at a completion or a reset. -/
def Obligations.BusyWriters : Prop :=
  ∀ s t : State, step s = .next t →
    (s.busy = false → t.busy = true → ∃ d, HostNext s (.write 0x00C 4 d)) ∧
    (s.busy = true → t.busy = false → (∃ s0, EngineNext s s0) ∨ ResetNext s)

/-- R40, R217: DONE rises only at a completion; it falls only at an acceptance, by a write of 1 to its bit, or by
reset. -/
def Obligations.DoneWriters : Prop :=
  ∀ s t : State, step s = .next t →
    (s.done = false → t.done = true → s.busy = true ∧ ∃ s0, EngineNext s s0) ∧
    (s.done = true → t.done = false →
      (s.busy = false ∧ ∃ d, HostNext s (.write 0x00C 4 d)) ∨
      (∃ d : Word, d.getLsbD 0 = true ∧ HostNext s (.write 0x010 4 d)) ∨ ResetNext s)

/-- R39: BUSYERR rises only by a 32-bit CMD write or a 32-bit access of a window word while a command is in progress, and
falls only by a write of 1 to STATUS bit 16 or by reset. That only 32-bit accesses count, so that a narrow, wide or
misaligned access of CMD or of the window while busy sets no BUSYERR, is the model's choice (R57 over R37 and R55, log
entry 12). -/
def Obligations.BusyErrWriters : Prop :=
  ∀ s t : State, step s = .next t →
    (s.busyErr = false → t.busyErr = true → s.busy = true ∧
      ((∃ d, HostNext s (.write 0x00C 4 d)) ∨
       ∃ r k, k < s.params.words ∧ (HostNext s (.read (windowOffset s.params r k) 4) ∨
         ∃ d, HostNext s (.write (windowOffset s.params r k) 4 d)))) ∧
    (s.busyErr = true → t.busyErr = false →
      (∃ d : Word, d.getLsbD 16 = true ∧ HostNext s (.write 0x008 4 d)) ∨ ResetNext s)

/-- R33, R63: CMDREG changes only when a command is accepted, to that command's word, or by reset. -/
def Obligations.CommandRegisterWriters : Prop :=
  ∀ s t : State, step s = .next t → t.cmdReg ≠ s.cmdReg →
    (s.busy = false ∧ HostNext s (.write 0x00C 4 t.cmdReg)) ∨ ResetNext s

/-- R6: every parameter is fixed at build time and no step changes one. -/
def Obligations.BuildParametersFixed : Prop := ∀ s t : State, step s = .next t → t.params = s.params

/-! ## The invariant and reset -/

/-- R7, R32, R36: every step keeps the invariant, from every state that meets it: the parameters stay legal, every
register stays in `[0, 2^W)`, ERR agrees with ERRCODE, and a command in progress has ERR, ERRCODE and DONE clear. -/
def Obligations.StepKeepsInvariant : Prop := ∀ s t : State, s.Inv → step s = .next t → t.Inv

/-- The state after reset meets the invariant. It rests on the parameters State.reset takes (log entries 1 and 2). -/
def Obligations.ResetMeetsInvariant : Prop := State.reset.Inv

/-- R43: the values of the state after reset, and what the status registers then read. -/
def Obligations.ResetStateValues : Prop :=
  HasResetValues State.reset ∧ State.reset.ctrlWord = 0#32 ∧ State.reset.statusWord = 0#32 ∧
  State.reset.irqStatusWord = 0#32

/-- R240, R241, R43: the hardware reset and the soft reset have one effect, also while a command is in progress: every
piece of the block's state takes its reset value, so the command in progress writes no destination and has no
completion. The build parameters are no state of the block; the schedule loses the event. -/
def Obligations.ResetRule : Prop :=
  ∀ s : State, s.params.Legal → ResetNext s →
    ∃ t, step s = .next t ∧ HasResetValues t ∧ t.params = s.params ∧ t.pending = s.pending.tail ∧ t.reads = s.reads

/-! ## The register interface -/

/-- R27: a CTRL write with bit 1 clear sets IRQ_EN and changes nothing else; with bit 1 set it resets and ignores
bit 0. -/
def Obligations.CtrlWriteRule : Prop :=
  ∀ (s : State) (v : Word) (es : List Event), s.params.Legal → s.pending = .host (.write 0x004 4 v) :: es →
    (v.getLsbD 1 = false → step s = .next { s with pending := es, irqEn := v.getLsbD 0 }) ∧
    (v.getLsbD 1 = true → ∃ t, step s = .next t ∧ HasResetValues t ∧ t.params = s.params ∧ t.pending = es ∧
      t.reads = s.reads)

/-- R30: a STATUS write clears BUSYERR if bit 16 is 1 and changes nothing else, at any time. -/
def Obligations.StatusWriteRule : Prop :=
  ∀ (s : State) (v : Word) (es : List Event), s.params.Legal → s.pending = .host (.write 0x008 4 v) :: es →
    step s = .next { s with pending := es, busyErr := if v.getLsbD 16 then false else s.busyErr }

/-- R36: a CMD write while idle accepts the command, whatever the word, and changes nothing else. -/
def Obligations.CommandAccepted : Prop :=
  ∀ (s : State) (v : Word) (es : List Event), s.params.Legal → s.pending = .host (.write 0x00C 4 v) :: es →
    s.busy = false →
    step s = .next { s with
      pending := es, cmdReg := v, busy := true, err := false, errCode := none, done := false }

/-- R37: a CMD write while a command is in progress is dropped and sets BUSYERR. -/
def Obligations.CommandDroppedWhileBusy : Prop :=
  ∀ (s : State) (v : Word) (es : List Event), s.params.Legal → s.pending = .host (.write 0x00C 4 v) :: es →
    s.busy = true → step s = .next { s with pending := es, busyErr := true }

/-- R40: DONE in full: what a read of IRQ_STATUS returns, what a write of it clears, and that every completion sets it,
acceptance clears it and reset clears it. -/
def Obligations.IrqStatusRule : Prop :=
  (∀ (s : State) (es : List Event), s.params.Legal → s.pending = .host (.read 0x010 4) :: es →
    step s = .next { s with pending := es, reads := s.reads ++ [if s.done then 1#32 else 0#32] }) ∧
  (∀ (s : State) (v : Word) (es : List Event), s.params.Legal → s.pending = .host (.write 0x010 4 v) :: es →
    step s = .next { s with pending := es, done := if v.getLsbD 0 then false else s.done }) ∧
  (∀ s s0 : State, EngineNext s s0 → s.busy = true → ∃ t, step s = .next t ∧ t.done = true) ∧
  (∀ (s : State) (v : Word), s.params.Legal → HostNext s (.write 0x00C 4 v) → s.busy = false →
    ∃ t, step s = .next t ∧ t.done = false) ∧
  (∀ s : State, s.params.Legal → ResetNext s → ∃ t, step s = .next t ∧ t.done = false)

/-- R53: a window read while idle returns bits `[32k+31:32k]` of the register and has no side effect. -/
def Obligations.WindowReadWhileIdle : Prop :=
  ∀ (s : State) (r : Reg) (k : Nat) (es : List Event), s.params.Legal → k < s.params.words → s.busy = false →
    s.pending = .host (.read (windowOffset s.params r k) 4) :: es →
    ∃ v : Word, step s = .next { s with pending := es, reads := s.reads ++ [v] } ∧
      ∀ j, j < 32 → v.getLsbD j = (s.reg r).testBit (32 * k + j)

/-- R54: a window write while idle replaces those bits; every other bit of the register, every other register and every
other field keep their values. -/
def Obligations.WindowWriteWhileIdle : Prop :=
  ∀ (s : State) (r : Reg) (k : Nat) (v : Word) (es : List Event), s.params.Legal → k < s.params.words →
    s.busy = false → s.pending = .host (.write (windowOffset s.params r k) 4 v) :: es →
    ∃ t, step s = .next t ∧ t = { s with pending := es, regs := t.regs } ∧ (∀ q, q ≠ r → t.reg q = s.reg q) ∧
      ∀ j, (t.reg r).testBit j =
        if 32 * k ≤ j ∧ j < 32 * k + 32 then v.getLsbD (j - 32 * k) else (s.reg r).testBit j

/-- R55: while a command is in progress a window write is dropped, a window read returns 0, each sets BUSYERR, and the
operand registers cannot change except by the completion or by reset. -/
def Obligations.WindowRefusedWhileBusy : Prop :=
  (∀ (s : State) (r : Reg) (k : Nat) (v : Word) (es : List Event), s.params.Legal → k < s.params.words →
    s.busy = true → s.pending = .host (.write (windowOffset s.params r k) 4 v) :: es →
    step s = .next { s with pending := es, busyErr := true }) ∧
  (∀ (s : State) (r : Reg) (k : Nat) (es : List Event), s.params.Legal → k < s.params.words →
    s.busy = true → s.pending = .host (.read (windowOffset s.params r k) 4) :: es →
    step s = .next { s with pending := es, busyErr := true, reads := s.reads ++ [0#32] }) ∧
  (∀ (s t : State) (r : Reg), s.busy = true → step s = .next t → t.reg r ≠ s.reg r →
    (∃ s0, EngineNext s s0) ∨ ResetNext s)

/-- R57: an access that is not 32 bits wide or not aligned is ignored: a write changes nothing, a read returns 0, and
neither sets a flag. That this also holds for an access of CMD or of the window while a command is in progress, which R37
and R55 could be read to refuse with BUSYERR, is the model's choice (log entry 12). -/
def Obligations.BadAccessIgnored : Prop :=
  ∀ (s : State) (off size : Nat) (v : Word) (es : List Event), off < s.params.aperture →
    (size ≠ 4 ∨ off % 4 ≠ 0) →
    (s.pending = .host (.write off size v) :: es → step s = .next { s with pending := es }) ∧
    (s.pending = .host (.read off size) :: es →
      step s = .next { s with pending := es, reads := s.reads ++ [0#32] })

/-- R58, R51: an access to an unmapped offset is ignored: a write changes nothing, a read returns 0, no flag is set. -/
def Obligations.UnmappedAccessIgnored : Prop :=
  ∀ (s : State) (off size : Nat) (v : Word) (es : List Event), off < s.params.aperture →
    ((0x018 ≤ off ∧ off ≤ 0xFFF) ∨ 0x1000 + s.params.width ≤ off) →
    (s.pending = .host (.write off size v) :: es → step s = .next { s with pending := es }) ∧
    (s.pending = .host (.read off size) :: es →
      step s = .next { s with pending := es, reads := s.reads ++ [0#32] })

/-- R60: a 32-bit window read while a command is in progress sets BUSYERR; every other read changes nothing. The host's
record of what it read grows by one word in both cases. That a narrow or misaligned read while busy is among the others is
the model's choice (log entry 12). -/
def Obligations.ReadsHaveNoSideEffect : Prop :=
  ∀ (s : State) (off size : Nat) (es : List Event), off < s.params.aperture →
    s.pending = .host (.read off size) :: es →
    ∃ v : Word,
      let refused := s.busy = true ∧ size = 4 ∧ ∃ r k, k < s.params.words ∧ off = windowOffset s.params r k
      (refused → step s = .next { s with pending := es, busyErr := true, reads := s.reads ++ [v] }) ∧
      (¬ refused → step s = .next { s with pending := es, reads := s.reads ++ [v] })

/-- R24, R25: ID reads ID_VALUE, PARAM reads its three fields, and a write to either is ignored. -/
def Obligations.IdentificationRegisters : Prop :=
  ∀ (s : State) (v : Word) (es : List Event), s.params.Legal →
    (s.pending = .host (.read 0x000 4) :: es →
      step s = .next { s with pending := es, reads := s.reads ++ [s.params.idValue] }) ∧
    (s.pending = .host (.write 0x000 4 v) :: es → step s = .next { s with pending := es }) ∧
    (s.pending = .host (.read 0x014 4) :: es →
      ∃ p : Word, step s = .next { s with pending := es, reads := s.reads ++ [p] } ∧
        (p.extractLsb' 0 16).toNat = s.params.words ∧ (p.extractLsb' 16 4).toNat = 8 ∧
        (p.extractLsb' 20 12).toNat = 0) ∧
    (s.pending = .host (.write 0x014 4 v) :: es → step s = .next { s with pending := es })

/-- R28: a CTRL read returns IRQ_EN zero-extended: bit 1 and bits `[31:2]` read 0. -/
def Obligations.CtrlReadRule : Prop :=
  ∀ (s : State) (es : List Event), s.params.Legal → s.pending = .host (.read 0x004 4) :: es →
    ∃ v : Word, step s = .next { s with pending := es, reads := s.reads ++ [v] } ∧ v.getLsbD 0 = s.irqEn ∧
      ∀ j, 1 ≤ j → v.getLsbD j = false

/-- R29, R35, R210: the layout of STATUS: every field at its bits, every reserved bit 0, at any time. -/
def Obligations.StatusReadRule : Prop :=
  ∀ (s : State) (es : List Event), s.params.Legal → s.pending = .host (.read 0x008 4) :: es →
    ∃ v : Word, step s = .next { s with pending := es, reads := s.reads ++ [v] } ∧
      v.getLsbD 0 = s.busy ∧ v.getLsbD 1 = s.err ∧ v.extractLsb' 2 2 = 0#2 ∧
      v.extractLsb' 4 4 = (match s.errCode with
        | none => 0#4
        | some .illegalOpcode => 1#4
        | some .badForm => 2#4
        | some .divZero => 3#4
        | some .overflow => 4#4
        | some .noInverse => 5#4) ∧
      v.getLsbD 8 = s.z ∧
      v.extractLsb' 9 2 = (match s.cmp with
        | .eq => 0b00#2
        | .lt => 0b01#2
        | .gt => 0b10#2) ∧
      v.extractLsb' 11 5 = 0#5 ∧ v.getLsbD 16 = s.busyErr ∧ v.extractLsb' 17 15 = 0#15

/-- R38: a CMD read returns CMDREG at any time with no side effect; CMDREG is 0 after reset and still holds the word of
the command after its completion, with or without an error. -/
def Obligations.CommandReadBack : Prop :=
  (∀ (s : State) (es : List Event), s.params.Legal → s.pending = .host (.read 0x00C 4) :: es →
    step s = .next { s with pending := es, reads := s.reads ++ [s.cmdReg] }) ∧
  State.reset.cmdReg = 0x00000000#32 ∧
  ∀ s s0 : State, EngineNext s s0 → s.busy = true → ∃ t, step s = .next t ∧ t.cmdReg = s.cmdReg

/-- R56, R52: an operand register is a little-endian array of bytes: byte lane `b` of word `k` is byte `4k+b` of the
register. -/
def Obligations.WindowIsLittleEndian : Prop :=
  ∀ (s : State) (r : Reg) (k b : Nat) (es : List Event), s.params.Legal → k < s.params.words → b < 4 →
    s.busy = false → s.pending = .host (.read (windowOffset s.params r k) 4) :: es →
    ∃ v : Word, step s = .next { s with pending := es, reads := s.reads ++ [v] } ∧
      (v.extractLsb' (8 * b) 8).toNat = s.reg r / 2 ^ (8 * (4 * k + b)) % 2 ^ 8

/-- R41: `irq` is the level IRQ_EN AND DONE, and once asserted it falls only when the host clears DONE, clears IRQ_EN,
accepts a new command, or resets the block. -/
def Obligations.InterruptLevel : Prop :=
  (∀ s : State, s.irq = true ↔ s.irqEn = true ∧ s.done = true) ∧
  ∀ s t : State, step s = .next t → s.irq = true → t.irq = false →
    (∃ d : Word, d.getLsbD 0 = true ∧ HostNext s (.write 0x010 4 d)) ∨
    (∃ d : Word, d.getLsbD 0 = false ∧ HostNext s (.write 0x004 4 d)) ∨
    (s.busy = false ∧ ∃ d, HostNext s (.write 0x00C 4 d)) ∨ ResetNext s

/-- R6, R51: an access at or above APERTURE does not select the block; that the model then stops, by name, is its own
choice (log entry 2). -/
def Obligations.OutsideApertureStops : Prop :=
  ∀ (s : State) (off size : Nat) (v : Word) (es : List Event), s.params.aperture ≤ off →
    s.pending = .host (.read off size) :: es ∨ s.pending = .host (.write off size v) :: es →
    step s = .fault (.outsideAperture off)

/-- R250: an accepted command completes after finitely many host accesses, or a reset intervenes: with every scheduled
access inside the aperture, BUSY is 0 after some number of steps, at most one more than the schedule is long. -/
def Obligations.AcceptedCommandEnds : Prop :=
  ∀ s : State, s.busy = true →
    (∀ off size, .host (.read off size) ∈ s.pending → off < s.params.aperture) →
    (∀ off size d, .host (.write off size d) ∈ s.pending → off < s.params.aperture) →
    ∃ n t, n ≤ s.pending.length + 1 ∧ Host.Core.run Sys2Proof.core n s = .next t ∧ State.busy t = false

/-- R11: `signed_W` of a register value subtracts `2^W` when its top bit is set, and lies in `[-2^(W-1), 2^(W-1))`; `tc_W`
of an integer in that range is its residue modulo `2^W`; `tc_W` undoes `signed_W`. -/
def Obligations.SignedEncodingInverse : Prop :=
  ∀ w : Nat, 0 < w →
    (∀ v : Nat, v < 2 ^ w →
      signedW w v = (if v.testBit (w - 1) then (v : Int) - 2 ^ w else (v : Int)) ∧
      -2 ^ (w - 1) ≤ signedW w v ∧ signedW w v < 2 ^ (w - 1) ∧ tcW w (signedW w v) = v) ∧
    ∀ x : Int, -2 ^ (w - 1) ≤ x → x < 2 ^ (w - 1) → (tcW w x : Int) = x % 2 ^ w

/-! ## The commands

Each statement holds its rule whole: the encoding (the word an assembler writes, and that every word of that form selects
the command whatever the fields it ignores hold), the result on every state, the flags, the errors with nothing written,
and the frame of the completion. The sources are read in the state before the completion, so aliased operands are
covered (R110, R150, R170). -/

/-- R111. -/
def Obligations.MulRule : Prop :=
  SelectedByFormatR 0x10 (fun rd rd2 rs1 rs2 _ => .mul rd rd2 rs1 rs2) ∧
  ∀ rd rd2 rs1 rs2 : Reg, encode (.mul rd rd2 rs1 rs2) = formatRWord 0x10 rd rd2 rs1 rs2 0 ∧
    ∀ s : State,
      (rd = rd2 → FailsWith (.mul rd rd2 rs1 rs2) s .badForm) ∧
      (rd ≠ rd2 → Succeeds (.mul rd rd2 rs1 rs2) s
        [(rd, s.reg rs1 * s.reg rs2 % 2 ^ s.params.width), (rd2, s.reg rs1 * s.reg rs2 / 2 ^ s.params.width)]
        (decide (s.reg rs1 * s.reg rs2 = 0)) s.cmp)

/-- R112. -/
def Obligations.ModmulRule : Prop :=
  SelectedByFormatR 0x11 (fun rd _ rs1 rs2 rs3 => .modmul rd rs1 rs2 rs3) ∧
  ∀ rd rs1 rs2 rs3 : Reg, encode (.modmul rd rs1 rs2 rs3) = formatRWord 0x11 rd 0 rs1 rs2 rs3 ∧
    ∀ s : State,
      (s.reg rs3 = 0 → FailsWith (.modmul rd rs1 rs2 rs3) s .divZero) ∧
      (s.reg rs3 ≠ 0 → Succeeds (.modmul rd rs1 rs2 rs3) s [(rd, s.reg rs1 * s.reg rs2 % s.reg rs3)]
        (decide (s.reg rs1 * s.reg rs2 % s.reg rs3 = 0)) s.cmp)

/-- R113. -/
def Obligations.ModRule : Prop :=
  SelectedByFormatR 0x12 (fun rd _ rs1 rs2 _ => .mod rd rs1 rs2) ∧
  ∀ rd rs1 rs2 : Reg, encode (.mod rd rs1 rs2) = formatRWord 0x12 rd 0 rs1 rs2 0 ∧
    ∀ s : State,
      (s.reg rs2 = 0 → FailsWith (.mod rd rs1 rs2) s .divZero) ∧
      (s.reg rs2 ≠ 0 → Succeeds (.mod rd rs1 rs2) s [(rd, s.reg rs1 % s.reg rs2)]
        (decide (s.reg rs1 % s.reg rs2 = 0)) s.cmp)

/-- R114. -/
def Obligations.ModaddRule : Prop :=
  SelectedByFormatR 0x13 (fun rd _ rs1 rs2 rs3 => .modadd rd rs1 rs2 rs3) ∧
  ∀ rd rs1 rs2 rs3 : Reg, encode (.modadd rd rs1 rs2 rs3) = formatRWord 0x13 rd 0 rs1 rs2 rs3 ∧
    ∀ s : State,
      (s.reg rs3 = 0 → FailsWith (.modadd rd rs1 rs2 rs3) s .divZero) ∧
      (s.reg rs3 ≠ 0 → Succeeds (.modadd rd rs1 rs2 rs3) s [(rd, (s.reg rs1 + s.reg rs2) % s.reg rs3)]
        (decide ((s.reg rs1 + s.reg rs2) % s.reg rs3 = 0)) s.cmp)

/-- R115: the residue of the integer difference, never negative. -/
def Obligations.ModsubRule : Prop :=
  SelectedByFormatR 0x14 (fun rd _ rs1 rs2 rs3 => .modsub rd rs1 rs2 rs3) ∧
  ∀ rd rs1 rs2 rs3 : Reg, encode (.modsub rd rs1 rs2 rs3) = formatRWord 0x14 rd 0 rs1 rs2 rs3 ∧
    ∀ s : State,
      (s.reg rs3 = 0 → FailsWith (.modsub rd rs1 rs2 rs3) s .divZero) ∧
      (s.reg rs3 ≠ 0 → ∃ r : Nat, (r : Int) = ((s.reg rs1 : Int) - (s.reg rs2 : Int)) % (s.reg rs3 : Int) ∧
        r < s.reg rs3 ∧ Succeeds (.modsub rd rs1 rs2 rs3) s [(rd, r)] (decide (r = 0)) s.cmp)

/-- R140: the exact power, reduced; `a ^ 0 = 1` for every `a`. -/
def Obligations.ModexpRule : Prop :=
  SelectedByFormatR 0x20 (fun rd _ rs1 rs2 rs3 => .modexp rd rs1 rs2 rs3) ∧
  ∀ rd rs1 rs2 rs3 : Reg, encode (.modexp rd rs1 rs2 rs3) = formatRWord 0x20 rd 0 rs1 rs2 rs3 ∧
    ∀ s : State,
      (s.reg rs3 = 0 → FailsWith (.modexp rd rs1 rs2 rs3) s .divZero) ∧
      (s.reg rs3 ≠ 0 → Succeeds (.modexp rd rs1 rs2 rs3) s [(rd, s.reg rs1 ^ s.reg rs2 % s.reg rs3)]
        (decide (s.reg rs1 ^ s.reg rs2 % s.reg rs3 = 0)) s.cmp)

/-- R151: the greatest common divisor, by its property: it divides both, and whatever divides both divides it; so
`gcd(a, 0) = a` and `gcd(0, 0) = 0` (R10). There is no error. -/
def Obligations.GcdRule : Prop :=
  SelectedByFormatR 0x30 (fun rd _ rs1 rs2 _ => .gcd rd rs1 rs2) ∧
  ∀ rd rs1 rs2 : Reg, encode (.gcd rd rs1 rs2) = formatRWord 0x30 rd 0 rs1 rs2 0 ∧
    ∀ s : State, ∃ g : Nat, g ∣ s.reg rs1 ∧ g ∣ s.reg rs2 ∧
      (∀ d : Nat, d ∣ s.reg rs1 → d ∣ s.reg rs2 → d ∣ g) ∧
      Succeeds (.gcd rd rs1 rs2) s [(rd, g)] (decide (g = 0)) s.cmp

/-- R152: the unique inverse in `[0, m)`; DIV_ZERO is checked before NO_INVERSE. -/
def Obligations.ModinvRule : Prop :=
  SelectedByFormatR 0x31 (fun rd _ rs1 rs2 _ => .modinv rd rs1 rs2) ∧
  ∀ rd rs1 rs2 : Reg, encode (.modinv rd rs1 rs2) = formatRWord 0x31 rd 0 rs1 rs2 0 ∧
    ∀ s : State,
      (s.reg rs2 = 0 → FailsWith (.modinv rd rs1 rs2) s .divZero) ∧
      (s.reg rs2 ≠ 0 → Nat.gcd (s.reg rs1) (s.reg rs2) ≠ 1 → FailsWith (.modinv rd rs1 rs2) s .noInverse) ∧
      (s.reg rs2 ≠ 0 → Nat.gcd (s.reg rs1) (s.reg rs2) = 1 → ∃ x : Nat,
        x < s.reg rs2 ∧ s.reg rs1 * x % s.reg rs2 = 1 % s.reg rs2 ∧
        (∀ y : Nat, y < s.reg rs2 → s.reg rs1 * y % s.reg rs2 = 1 % s.reg rs2 → y = x) ∧
        Succeeds (.modinv rd rs1 rs2) s [(rd, x)] (decide (x = 0)) s.cmp)

/-- R153: the exact least common multiple or an error; DIV_ZERO is checked before OVERFLOW. -/
def Obligations.LcmRule : Prop :=
  SelectedByFormatR 0x32 (fun rd _ rs1 rs2 _ => .lcm rd rs1 rs2) ∧
  ∀ rd rs1 rs2 : Reg, encode (.lcm rd rs1 rs2) = formatRWord 0x32 rd 0 rs1 rs2 0 ∧
    ∀ s : State,
      (s.reg rs1 = 0 ∧ s.reg rs2 = 0 → FailsWith (.lcm rd rs1 rs2) s .divZero) ∧
      (¬(s.reg rs1 = 0 ∧ s.reg rs2 = 0) →
        2 ^ s.params.width ≤ s.reg rs1 * s.reg rs2 / Nat.gcd (s.reg rs1) (s.reg rs2) →
        FailsWith (.lcm rd rs1 rs2) s .overflow) ∧
      (¬(s.reg rs1 = 0 ∧ s.reg rs2 = 0) →
        s.reg rs1 * s.reg rs2 / Nat.gcd (s.reg rs1) (s.reg rs2) < 2 ^ s.params.width →
        Succeeds (.lcm rd rs1 rs2) s [(rd, s.reg rs1 * s.reg rs2 / Nat.gcd (s.reg rs1) (s.reg rs2))]
          (decide (s.reg rs1 * s.reg rs2 / Nat.gcd (s.reg rs1) (s.reg rs2) = 0)) s.cmp)

/-- R171: no register and no flag is written; the acceptance before it clears ERR, ERRCODE and DONE, and the completion
sets DONE and leaves them clear. -/
def Obligations.NopRule : Prop :=
  SelectedByFormatR 0x00 (fun _ _ _ _ _ => .nop) ∧ encode .nop = 0x00000000#32 ∧ decode State.reset.cmdReg = .ok .nop ∧
  ∀ s : State, Succeeds .nop s [] s.z s.cmp ∧
    ∀ w : Word, (s.accept w).err = false ∧ (s.accept w).errCode = none ∧ (s.accept w).done = false ∧
      ∃ t, exec .nop (s.accept w) = .next t ∧ t.busy = false ∧ t.err = false ∧ t.errCode = none ∧ t.done = true ∧
        ∀ r, t.reg r = s.reg r

/-- R172. -/
def Obligations.MovRule : Prop :=
  SelectedByFormatR 0x40 (fun rd _ rs1 _ _ => .mov rd rs1) ∧
  ∀ rd rs1 : Reg, encode (.mov rd rs1) = formatRWord 0x40 rd 0 rs1 0 0 ∧
    ∀ s : State, Succeeds (.mov rd rs1) s [(rd, s.reg rs1)] (decide (s.reg rs1 = 0)) s.cmp

/-- R173, R82, R84: the immediate zero-extended; BAD_FORM by its own reserved bits. -/
def Obligations.MoviRule : Prop :=
  (∀ w : Word, w.extractLsb' 0 8 = 0x41#8 →
    (w.extractLsb' 11 5 = 0#5 → decode w = .ok (.movi (w.extractLsb' 8 3) (w.extractLsb' 16 16))) ∧
    (w.extractLsb' 11 5 ≠ 0#5 → decode w = .error .badForm)) ∧
  ∀ (rd : Reg) (imm16 : BitVec 16), encode (.movi rd imm16) = formatIWord 0x41 rd imm16 ∧
    ∀ s : State, Succeeds (.movi rd imm16) s [(rd, imm16.toNat)] (decide (imm16.toNat = 0)) s.cmp

/-- R174: exact, or OVERFLOW with nothing written. -/
def Obligations.AddRule : Prop :=
  SelectedByFormatR 0x42 (fun rd _ rs1 rs2 _ => .add rd rs1 rs2) ∧
  ∀ rd rs1 rs2 : Reg, encode (.add rd rs1 rs2) = formatRWord 0x42 rd 0 rs1 rs2 0 ∧
    ∀ s : State,
      (2 ^ s.params.width ≤ s.reg rs1 + s.reg rs2 → FailsWith (.add rd rs1 rs2) s .overflow) ∧
      (s.reg rs1 + s.reg rs2 < 2 ^ s.params.width → Succeeds (.add rd rs1 rs2) s
        [(rd, s.reg rs1 + s.reg rs2)] (decide (s.reg rs1 + s.reg rs2 = 0)) s.cmp)

/-- R175: exact, or OVERFLOW with nothing written; the difference `d` is the one with `d + b = a`. -/
def Obligations.SubRule : Prop :=
  SelectedByFormatR 0x43 (fun rd _ rs1 rs2 _ => .sub rd rs1 rs2) ∧
  ∀ rd rs1 rs2 : Reg, encode (.sub rd rs1 rs2) = formatRWord 0x43 rd 0 rs1 rs2 0 ∧
    ∀ s : State,
      (s.reg rs1 < s.reg rs2 → FailsWith (.sub rd rs1 rs2) s .overflow) ∧
      (s.reg rs2 ≤ s.reg rs1 → ∃ d : Nat, d + s.reg rs2 = s.reg rs1 ∧
        Succeeds (.sub rd rs1 rs2) s [(rd, d)] (decide (d = 0)) s.cmp)

/-- R176: quotient and remainder; BAD_FORM is checked before DIV_ZERO. -/
def Obligations.DivmodRule : Prop :=
  SelectedByFormatR 0x44 (fun rd rd2 rs1 rs2 _ => .divmod rd rd2 rs1 rs2) ∧
  ∀ rd rd2 rs1 rs2 : Reg, encode (.divmod rd rd2 rs1 rs2) = formatRWord 0x44 rd rd2 rs1 rs2 0 ∧
    ∀ s : State,
      (rd = rd2 → FailsWith (.divmod rd rd2 rs1 rs2) s .badForm) ∧
      (rd ≠ rd2 → s.reg rs2 = 0 → FailsWith (.divmod rd rd2 rs1 rs2) s .divZero) ∧
      (rd ≠ rd2 → s.reg rs2 ≠ 0 → ∃ q r : Nat, q * s.reg rs2 + r = s.reg rs1 ∧ r < s.reg rs2 ∧
        Succeeds (.divmod rd rd2 rs1 rs2) s [(rd, q), (rd2, r)] (decide (q = 0 ∧ r = 0)) s.cmp)

/-- R177: the unsigned comparison; no register is written. -/
def Obligations.CmpRule : Prop :=
  SelectedByFormatR 0x45 (fun _ _ rs1 rs2 _ => .cmp rs1 rs2) ∧
  ∀ rs1 rs2 : Reg, encode (.cmp rs1 rs2) = formatRWord 0x45 0 0 rs1 rs2 0 ∧
    ∀ s : State, ∃ c : CmpFlag,
      c.bits = (if s.reg rs1 = s.reg rs2 then 0b00#2 else if s.reg rs1 < s.reg rs2 then 0b01#2 else 0b10#2) ∧
      Succeeds (.cmp rs1 rs2) s [] (decide (s.reg rs1 = s.reg rs2)) c

/-- R178, R11: the residue in `[0, b)` of the two's-complement value of the first operand. -/
def Obligations.SmodRule : Prop :=
  SelectedByFormatR 0x46 (fun rd _ rs1 rs2 _ => .smod rd rs1 rs2) ∧
  ∀ rd rs1 rs2 : Reg, encode (.smod rd rs1 rs2) = formatRWord 0x46 rd 0 rs1 rs2 0 ∧
    ∀ s : State,
      (s.reg rs2 = 0 → FailsWith (.smod rd rs1 rs2) s .divZero) ∧
      (s.reg rs2 ≠ 0 → ∃ r : Nat,
        (r : Int) = (if (s.reg rs1).testBit (s.params.width - 1) then (s.reg rs1 : Int) - 2 ^ s.params.width
          else (s.reg rs1 : Int)) % (s.reg rs2 : Int) ∧
        r < s.reg rs2 ∧ Succeeds (.smod rd rs1 rs2) s [(rd, r)] (decide (r = 0)) s.cmp)

/-- R179, R11: with `v = a mod b`, the value written is the two's complement of `v - b` when `2*v > b`, else of `v`; read
back as a signed value it is that integer when the modulus is in range. -/
def Obligations.SremapRule : Prop :=
  SelectedByFormatR 0x47 (fun rd _ rs1 rs2 _ => .sremap rd rs1 rs2) ∧
  ∀ rd rs1 rs2 : Reg, encode (.sremap rd rs1 rs2) = formatRWord 0x47 rd 0 rs1 rs2 0 ∧
    ∀ s : State,
      (s.reg rs2 = 0 → FailsWith (.sremap rd rs1 rs2) s .divZero) ∧
      (s.reg rs2 ≠ 0 → ∃ (x : Int) (r : Nat),
        x = (if 2 * (s.reg rs1 % s.reg rs2) > s.reg rs2 then ((s.reg rs1 % s.reg rs2 : Nat) : Int) - (s.reg rs2 : Int)
          else ((s.reg rs1 % s.reg rs2 : Nat) : Int)) ∧
        (r : Int) = x % 2 ^ s.params.width ∧
        (s.params.Legal → s.RegsInRange → signedW s.params.width r = x) ∧
        Succeeds (.sremap rd rs1 rs2) s [(rd, r)] (decide (x = 0)) s.cmp)
end

