-- ==== Sys2Proof/Laws/Arith.lean ====
section
/-! SUPPORT. The arithmetic of the units: each computed function equals the expression of its rule. -/

namespace Sys2Proof.Laws

open Sys2Proof.Machine

/-- Square-and-multiply computes R140's `(a ^ e) mod m` when the bound on halvings is large enough. -/
theorem powModAux_eq (a m : Nat) : ∀ k e, e ≤ k → powModAux a m k e = a ^ e % m
  | 0, e, h => by simp [powModAux, Nat.le_zero.mp h]
  | k + 1, e, h => by
    unfold powModAux
    by_cases he : e = 0
    · simp [he]
    have ih := powModAux_eq a m k (e / 2) (by omega)
    have sq : a ^ (e / 2) * a ^ (e / 2) = a ^ (2 * (e / 2)) := by rw [← pow_add]; congr 1; omega
    by_cases ho : e % 2 = 1
    · have e2 : e = 2 * (e / 2) + 1 := by omega
      simp only [he, ho, ih, if_true, if_false]
      rw [← Nat.mul_mod, sq, Nat.mod_mul_mod, ← pow_succ, ← e2]
    · have e2 : e = 2 * (e / 2) := by omega
      simp only [he, ho, ih, if_false]
      rw [← Nat.mul_mod, sq, ← e2]

theorem powMod_eq (a e m : Nat) : powMod a e m = a ^ e % m := powModAux_eq a m e e le_rfl

/-- The extended Euclidean algorithm returns the coefficients of the gcd when the bound on divisions is large enough. -/
theorem bezout_spec : ∀ k a b, b < k → (bezout k a b).1 * a + (bezout k a b).2 * b = (Nat.gcd a b : Int)
  | 0, _, _, h => by omega
  | k + 1, a, b, h => by
    unfold bezout
    by_cases hb : b = 0
    · simp [hb]
    · have hlt : a % b < b := Nat.mod_lt _ (Nat.pos_of_ne_zero hb)
      have ih := bezout_spec k b (a % b) (by omega)
      rw [Nat.gcd_comm, Nat.gcd_rec, Nat.gcd_comm, ← ih]
      have hdiv : (a : Int) = b * (a / b : Nat) + (a % b : Nat) := by exact_mod_cast (Nat.div_add_mod a b).symm
      simp only [hb, if_false]
      generalize bezout k b (a % b) = c at *
      linear_combination c.2 * hdiv

/-- The residue of an integer is in `[0, b)` (R10). -/
theorem floorMod_lt (a : Int) {b : Nat} (h : b ≠ 0) : floorMod a b < b := by
  have := Int.emod_lt_of_pos a (by omega : (0 : Int) < b)
  have := Int.emod_nonneg a (by omega : (b : Int) ≠ 0)
  unfold floorMod
  omega

/-- As an integer, the residue is `a mod b` (R10). -/
theorem floorMod_cast (a : Int) {b : Nat} (h : b ≠ 0) : (floorMod a b : Int) = a % b :=
  Int.toNat_of_nonneg (Int.emod_nonneg a (by omega))

/-- The computed inverse lies in `[0, m)` and is an inverse (R152). -/
theorem modInverse_spec {a m : Nat} (hm : m ≠ 0) (hg : Nat.gcd a m = 1) :
    modInverse a m < m ∧ a * modInverse a m % m = 1 % m := by
  refine ⟨floorMod_lt _ hm, ?_⟩
  have h := bezout_spec (m + 1) a m (Nat.lt_succ_self m)
  rw [hg] at h
  have hx := floorMod_cast (bezout (m + 1) a m).1 hm
  zify
  rw [modInverse, hx, Int.mul_emod, Int.emod_emod, ← Int.mul_emod]
  have : (a : Int) * (bezout (m + 1) a m).1 = 1 - (bezout (m + 1) a m).2 * m := by push_cast at h; linarith
  rw [this, Int.sub_mul_emod_self_right]

/-- The inverse is unique in `[0, m)` (R150). -/
theorem modInverse_unique {a m x y : Nat} (hg : Nat.gcd a m = 1) (hx : x < m) (hy : y < m)
    (ex : a * x % m = 1 % m) (ey : a * y % m = 1 % m) : x = y := by
  have h : a * x ≡ a * y [MOD m] := ex.trans ey.symm
  have := Nat.ModEq.cancel_left_of_coprime (by rwa [Nat.gcd_comm] at hg) h
  rwa [Nat.ModEq, Nat.mod_eq_of_lt hx, Nat.mod_eq_of_lt hy] at this

/-- `signed_W` of a register in range, by comparison with `2^(W-1)` (R11). -/
theorem signedW_eq {w v : Nat} (hw : 0 < w) (hv : v < 2 ^ w) :
    signedW w v = if v < 2 ^ (w - 1) then (v : Int) else (v : Int) - 2 ^ w := by
  obtain ⟨n, rfl⟩ : ∃ n, w = n + 1 := ⟨w - 1, by omega⟩
  have h2 : 2 ^ (n + 1) = 2 * 2 ^ n := by rw [pow_succ]; ring
  have pos : 0 < 2 ^ n := Nat.two_pow_pos n
  unfold signedW
  simp only [Nat.add_sub_cancel, Nat.testBit_eq_decide_div_mod_eq]
  by_cases h : v < 2 ^ n
  · simp [h, Nat.div_eq_of_lt h]
  · have hd : v / 2 ^ n = 1 := Nat.div_eq_of_lt_le (by omega) (by omega)
    simp [h, hd]

/-- The two's-complement encoding of any integer is a register value (R11). -/
theorem tcW_lt (w : Nat) (v : Int) : tcW w v < 2 ^ w := by
  have h : (0 : Int) < 2 ^ w := by positivity
  have := Int.emod_lt_of_pos v h
  have := Int.emod_nonneg v (ne_of_gt h)
  unfold tcW
  zify
  rw [Int.toNat_of_nonneg (by assumption)]
  assumption

/-- `signed_W(tc_W(s)) = s` for `s` in the range of `signed_W` (R11). -/
theorem signedW_tcW {w : Nat} {v : Int} (hw : 0 < w) (lo : -2 ^ (w - 1) ≤ v) (hi : v < 2 ^ (w - 1)) :
    signedW w (tcW w v) = v := by
  rw [signedW_eq hw (tcW_lt w v)]
  obtain ⟨n, rfl⟩ : ∃ n, w = n + 1 := ⟨w - 1, by omega⟩
  simp only [Nat.add_sub_cancel] at *
  have h2 : (2 : Int) ^ (n + 1) = 2 * 2 ^ n := by rw [pow_succ]; ring
  have pos : (0 : Int) < 2 ^ n := by positivity
  have cast : ((tcW (n + 1) v : Nat) : Int) = v % 2 ^ (n + 1) := Int.toNat_of_nonneg (Int.emod_nonneg v (by positivity))
  have key : (tcW (n + 1) v < 2 ^ n) ↔ v % 2 ^ (n + 1) < 2 ^ n := by rw [← cast]; exact_mod_cast Iff.rfl
  rw [cast, if_congr key rfl rfl]
  by_cases hv : 0 ≤ v
  · have e : v % 2 ^ (n + 1) = v := Int.emod_eq_of_lt hv (by omega)
    rw [e, if_pos hi]
  · have e : v % 2 ^ (n + 1) = v + 2 ^ (n + 1) := by
      rw [← Int.add_emod_right]; exact Int.emod_eq_of_lt (by omega) (by omega)
    rw [e, if_neg (by omega)]; omega

/-- Replacing a word of a register changes that word's bits and no other (R54). -/
theorem setWindowWord_testBit (v k : Nat) (d : Word) (j : Nat) :
    (setWindowWord v k d).testBit j =
      if 32 * k ≤ j ∧ j < 32 * k + 32 then d.getLsbD (j - 32 * k) else v.testBit j := by
  have hlow : v % 2 ^ (32 * k) < 2 ^ (32 * k) := Nat.mod_lt _ (Nat.two_pow_pos _)
  have hd : d.toNat < 2 ^ 32 := d.isLt
  have e : setWindowWord v k d =
      2 ^ (32 * k) * (2 ^ 32 * (v / 2 ^ (32 * k + 32)) + d.toNat) + v % 2 ^ (32 * k) := by
    unfold setWindowWord; rw [pow_add]; ring
  rw [e, Nat.testBit_two_pow_mul_add _ hlow]
  by_cases h1 : j < 32 * k
  · simp [h1, Nat.testBit_mod_two_pow, show ¬ 32 * k ≤ j by omega]
  · rw [if_neg h1, Nat.testBit_two_pow_mul_add _ hd]
    by_cases h2 : j < 32 * k + 32
    · simp [show 32 * k ≤ j by omega, h2, show j - 32 * k < 32 by omega, BitVec.getLsbD]
    · simp [h2, show ¬ j - 32 * k < 32 by omega, Nat.testBit_div_two_pow]
      congr 1; omega

/-- Bit `j` of word `k` of a register (R52). -/
theorem windowWord_getLsbD (v k j : Nat) : (windowWord v k).getLsbD j = (decide (j < 32) && v.testBit (32 * k + j)) := by
  simp [windowWord, BitVec.getLsbD_ofNat, Nat.testBit_div_two_pow, Nat.add_comm]

/-- A register in range stays in range when one of its words is replaced (R54). -/
theorem setWindowWord_lt {v k n : Nat} (d : Word) (hk : k < n) (hv : v < 2 ^ (32 * n)) :
    setWindowWord v k d < 2 ^ (32 * n) := by
  refine Nat.lt_pow_two_of_testBit _ fun j hj => ?_
  rw [setWindowWord_testBit, if_neg (by omega)]
  exact Nat.testBit_lt_two_pow (lt_of_lt_of_le hv (Nat.pow_le_pow_right (by norm_num) hj))

end Sys2Proof.Laws
end

