-- ==== Sys2Proof/Laws/State.lean ====
section
/-! SUPPORT. What each named update of the state does to each field, and what a register read sees after it. -/

namespace Sys2Proof.Machine

/-- Writing registers leaves every other field alone. -/
theorem State.writeRegs_fields (s : State) (ws : List (Reg × Nat)) :
    (s.writeRegs ws) = { s with regs := (s.writeRegs ws).regs } := by
  induction ws generalizing s with
  | nil => rfl
  | cons w ws ih => rw [State.writeRegs, ih]; rfl

@[simp] theorem State.writeRegs_params (s : State) (ws : List (Reg × Nat)) : (s.writeRegs ws).params = s.params := by
  rw [State.writeRegs_fields]
@[simp] theorem State.writeRegs_irqEn (s : State) (ws : List (Reg × Nat)) : (s.writeRegs ws).irqEn = s.irqEn := by
  rw [State.writeRegs_fields]
@[simp] theorem State.writeRegs_busy (s : State) (ws : List (Reg × Nat)) : (s.writeRegs ws).busy = s.busy := by
  rw [State.writeRegs_fields]
@[simp] theorem State.writeRegs_err (s : State) (ws : List (Reg × Nat)) : (s.writeRegs ws).err = s.err := by
  rw [State.writeRegs_fields]
@[simp] theorem State.writeRegs_errCode (s : State) (ws : List (Reg × Nat)) : (s.writeRegs ws).errCode = s.errCode := by
  rw [State.writeRegs_fields]
@[simp] theorem State.writeRegs_z (s : State) (ws : List (Reg × Nat)) : (s.writeRegs ws).z = s.z := by
  rw [State.writeRegs_fields]
@[simp] theorem State.writeRegs_cmp (s : State) (ws : List (Reg × Nat)) : (s.writeRegs ws).cmp = s.cmp := by
  rw [State.writeRegs_fields]
@[simp] theorem State.writeRegs_busyErr (s : State) (ws : List (Reg × Nat)) : (s.writeRegs ws).busyErr = s.busyErr := by
  rw [State.writeRegs_fields]
@[simp] theorem State.writeRegs_cmdReg (s : State) (ws : List (Reg × Nat)) : (s.writeRegs ws).cmdReg = s.cmdReg := by
  rw [State.writeRegs_fields]
@[simp] theorem State.writeRegs_done (s : State) (ws : List (Reg × Nat)) : (s.writeRegs ws).done = s.done := by
  rw [State.writeRegs_fields]
@[simp] theorem State.writeRegs_pending (s : State) (ws : List (Reg × Nat)) : (s.writeRegs ws).pending = s.pending := by
  rw [State.writeRegs_fields]
@[simp] theorem State.writeRegs_reads (s : State) (ws : List (Reg × Nat)) : (s.writeRegs ws).reads = s.reads := by
  rw [State.writeRegs_fields]

@[simp] theorem State.setReg_params (s : State) (r : Reg) (v : Nat) : (s.setReg r v).params = s.params := rfl
@[simp] theorem State.setReg_regs (s : State) (r : Reg) (v : Nat) : (s.setReg r v).regs = s.regs.set r.toNat v := rfl
@[simp] theorem State.setReg_irqEn (s : State) (r : Reg) (v : Nat) : (s.setReg r v).irqEn = s.irqEn := rfl
@[simp] theorem State.setReg_busy (s : State) (r : Reg) (v : Nat) : (s.setReg r v).busy = s.busy := rfl
@[simp] theorem State.setReg_err (s : State) (r : Reg) (v : Nat) : (s.setReg r v).err = s.err := rfl
@[simp] theorem State.setReg_errCode (s : State) (r : Reg) (v : Nat) : (s.setReg r v).errCode = s.errCode := rfl
@[simp] theorem State.setReg_z (s : State) (r : Reg) (v : Nat) : (s.setReg r v).z = s.z := rfl
@[simp] theorem State.setReg_cmp (s : State) (r : Reg) (v : Nat) : (s.setReg r v).cmp = s.cmp := rfl
@[simp] theorem State.setReg_busyErr (s : State) (r : Reg) (v : Nat) : (s.setReg r v).busyErr = s.busyErr := rfl
@[simp] theorem State.setReg_cmdReg (s : State) (r : Reg) (v : Nat) : (s.setReg r v).cmdReg = s.cmdReg := rfl
@[simp] theorem State.setReg_done (s : State) (r : Reg) (v : Nat) : (s.setReg r v).done = s.done := rfl
@[simp] theorem State.setReg_pending (s : State) (r : Reg) (v : Nat) : (s.setReg r v).pending = s.pending := rfl
@[simp] theorem State.setReg_reads (s : State) (r : Reg) (v : Nat) : (s.setReg r v).reads = s.reads := rfl

@[simp] theorem State.setPending_params (s : State) (es : List Event) : (s.setPending es).params = s.params := rfl
@[simp] theorem State.setPending_regs (s : State) (es : List Event) : (s.setPending es).regs = s.regs := rfl
@[simp] theorem State.setPending_irqEn (s : State) (es : List Event) : (s.setPending es).irqEn = s.irqEn := rfl
@[simp] theorem State.setPending_busy (s : State) (es : List Event) : (s.setPending es).busy = s.busy := rfl
@[simp] theorem State.setPending_err (s : State) (es : List Event) : (s.setPending es).err = s.err := rfl
@[simp] theorem State.setPending_errCode (s : State) (es : List Event) : (s.setPending es).errCode = s.errCode := rfl
@[simp] theorem State.setPending_z (s : State) (es : List Event) : (s.setPending es).z = s.z := rfl
@[simp] theorem State.setPending_cmp (s : State) (es : List Event) : (s.setPending es).cmp = s.cmp := rfl
@[simp] theorem State.setPending_busyErr (s : State) (es : List Event) : (s.setPending es).busyErr = s.busyErr := rfl
@[simp] theorem State.setPending_cmdReg (s : State) (es : List Event) : (s.setPending es).cmdReg = s.cmdReg := rfl
@[simp] theorem State.setPending_done (s : State) (es : List Event) : (s.setPending es).done = s.done := rfl
@[simp] theorem State.setPending_pending (s : State) (es : List Event) : (s.setPending es).pending = es := rfl
@[simp] theorem State.setPending_reads (s : State) (es : List Event) : (s.setPending es).reads = s.reads := rfl

@[simp] theorem State.pushRead_params (s : State) (v : Word) : (s.pushRead v).params = s.params := rfl
@[simp] theorem State.pushRead_regs (s : State) (v : Word) : (s.pushRead v).regs = s.regs := rfl
@[simp] theorem State.pushRead_irqEn (s : State) (v : Word) : (s.pushRead v).irqEn = s.irqEn := rfl
@[simp] theorem State.pushRead_busy (s : State) (v : Word) : (s.pushRead v).busy = s.busy := rfl
@[simp] theorem State.pushRead_err (s : State) (v : Word) : (s.pushRead v).err = s.err := rfl
@[simp] theorem State.pushRead_errCode (s : State) (v : Word) : (s.pushRead v).errCode = s.errCode := rfl
@[simp] theorem State.pushRead_z (s : State) (v : Word) : (s.pushRead v).z = s.z := rfl
@[simp] theorem State.pushRead_cmp (s : State) (v : Word) : (s.pushRead v).cmp = s.cmp := rfl
@[simp] theorem State.pushRead_busyErr (s : State) (v : Word) : (s.pushRead v).busyErr = s.busyErr := rfl
@[simp] theorem State.pushRead_cmdReg (s : State) (v : Word) : (s.pushRead v).cmdReg = s.cmdReg := rfl
@[simp] theorem State.pushRead_done (s : State) (v : Word) : (s.pushRead v).done = s.done := rfl
@[simp] theorem State.pushRead_pending (s : State) (v : Word) : (s.pushRead v).pending = s.pending := rfl
@[simp] theorem State.pushRead_reads (s : State) (v : Word) : (s.pushRead v).reads = s.reads ++ [v] := rfl

@[simp] theorem State.setIrqEn_params (s : State) (b : Bool) : (s.setIrqEn b).params = s.params := rfl
@[simp] theorem State.setIrqEn_regs (s : State) (b : Bool) : (s.setIrqEn b).regs = s.regs := rfl
@[simp] theorem State.setIrqEn_irqEn (s : State) (b : Bool) : (s.setIrqEn b).irqEn = b := rfl
@[simp] theorem State.setIrqEn_busy (s : State) (b : Bool) : (s.setIrqEn b).busy = s.busy := rfl
@[simp] theorem State.setIrqEn_err (s : State) (b : Bool) : (s.setIrqEn b).err = s.err := rfl
@[simp] theorem State.setIrqEn_errCode (s : State) (b : Bool) : (s.setIrqEn b).errCode = s.errCode := rfl
@[simp] theorem State.setIrqEn_z (s : State) (b : Bool) : (s.setIrqEn b).z = s.z := rfl
@[simp] theorem State.setIrqEn_cmp (s : State) (b : Bool) : (s.setIrqEn b).cmp = s.cmp := rfl
@[simp] theorem State.setIrqEn_busyErr (s : State) (b : Bool) : (s.setIrqEn b).busyErr = s.busyErr := rfl
@[simp] theorem State.setIrqEn_cmdReg (s : State) (b : Bool) : (s.setIrqEn b).cmdReg = s.cmdReg := rfl
@[simp] theorem State.setIrqEn_done (s : State) (b : Bool) : (s.setIrqEn b).done = s.done := rfl
@[simp] theorem State.setIrqEn_pending (s : State) (b : Bool) : (s.setIrqEn b).pending = s.pending := rfl
@[simp] theorem State.setIrqEn_reads (s : State) (b : Bool) : (s.setIrqEn b).reads = s.reads := rfl

@[simp] theorem State.setBusyErr_params (s : State) (b : Bool) : (s.setBusyErr b).params = s.params := rfl
@[simp] theorem State.setBusyErr_regs (s : State) (b : Bool) : (s.setBusyErr b).regs = s.regs := rfl
@[simp] theorem State.setBusyErr_irqEn (s : State) (b : Bool) : (s.setBusyErr b).irqEn = s.irqEn := rfl
@[simp] theorem State.setBusyErr_busy (s : State) (b : Bool) : (s.setBusyErr b).busy = s.busy := rfl
@[simp] theorem State.setBusyErr_err (s : State) (b : Bool) : (s.setBusyErr b).err = s.err := rfl
@[simp] theorem State.setBusyErr_errCode (s : State) (b : Bool) : (s.setBusyErr b).errCode = s.errCode := rfl
@[simp] theorem State.setBusyErr_z (s : State) (b : Bool) : (s.setBusyErr b).z = s.z := rfl
@[simp] theorem State.setBusyErr_cmp (s : State) (b : Bool) : (s.setBusyErr b).cmp = s.cmp := rfl
@[simp] theorem State.setBusyErr_busyErr (s : State) (b : Bool) : (s.setBusyErr b).busyErr = b := rfl
@[simp] theorem State.setBusyErr_cmdReg (s : State) (b : Bool) : (s.setBusyErr b).cmdReg = s.cmdReg := rfl
@[simp] theorem State.setBusyErr_done (s : State) (b : Bool) : (s.setBusyErr b).done = s.done := rfl
@[simp] theorem State.setBusyErr_pending (s : State) (b : Bool) : (s.setBusyErr b).pending = s.pending := rfl
@[simp] theorem State.setBusyErr_reads (s : State) (b : Bool) : (s.setBusyErr b).reads = s.reads := rfl

@[simp] theorem State.clearDone_params (s : State) : (s.clearDone).params = s.params := rfl
@[simp] theorem State.clearDone_regs (s : State) : (s.clearDone).regs = s.regs := rfl
@[simp] theorem State.clearDone_irqEn (s : State) : (s.clearDone).irqEn = s.irqEn := rfl
@[simp] theorem State.clearDone_busy (s : State) : (s.clearDone).busy = s.busy := rfl
@[simp] theorem State.clearDone_err (s : State) : (s.clearDone).err = s.err := rfl
@[simp] theorem State.clearDone_errCode (s : State) : (s.clearDone).errCode = s.errCode := rfl
@[simp] theorem State.clearDone_z (s : State) : (s.clearDone).z = s.z := rfl
@[simp] theorem State.clearDone_cmp (s : State) : (s.clearDone).cmp = s.cmp := rfl
@[simp] theorem State.clearDone_busyErr (s : State) : (s.clearDone).busyErr = s.busyErr := rfl
@[simp] theorem State.clearDone_cmdReg (s : State) : (s.clearDone).cmdReg = s.cmdReg := rfl
@[simp] theorem State.clearDone_done (s : State) : (s.clearDone).done = false := rfl
@[simp] theorem State.clearDone_pending (s : State) : (s.clearDone).pending = s.pending := rfl
@[simp] theorem State.clearDone_reads (s : State) : (s.clearDone).reads = s.reads := rfl

@[simp] theorem State.raiseError_params (s : State) (c : CmdError) : (s.raiseError c).params = s.params := rfl
@[simp] theorem State.raiseError_regs (s : State) (c : CmdError) : (s.raiseError c).regs = s.regs := rfl
@[simp] theorem State.raiseError_irqEn (s : State) (c : CmdError) : (s.raiseError c).irqEn = s.irqEn := rfl
@[simp] theorem State.raiseError_busy (s : State) (c : CmdError) : (s.raiseError c).busy = false := rfl
@[simp] theorem State.raiseError_err (s : State) (c : CmdError) : (s.raiseError c).err = true := rfl
@[simp] theorem State.raiseError_errCode (s : State) (c : CmdError) : (s.raiseError c).errCode = some c := rfl
@[simp] theorem State.raiseError_z (s : State) (c : CmdError) : (s.raiseError c).z = s.z := rfl
@[simp] theorem State.raiseError_cmp (s : State) (c : CmdError) : (s.raiseError c).cmp = s.cmp := rfl
@[simp] theorem State.raiseError_busyErr (s : State) (c : CmdError) : (s.raiseError c).busyErr = s.busyErr := rfl
@[simp] theorem State.raiseError_cmdReg (s : State) (c : CmdError) : (s.raiseError c).cmdReg = s.cmdReg := rfl
@[simp] theorem State.raiseError_done (s : State) (c : CmdError) : (s.raiseError c).done = true := rfl
@[simp] theorem State.raiseError_pending (s : State) (c : CmdError) : (s.raiseError c).pending = s.pending := rfl
@[simp] theorem State.raiseError_reads (s : State) (c : CmdError) : (s.raiseError c).reads = s.reads := rfl

@[simp] theorem State.finish_params (s : State) (e : Effect) : (s.finish e).params = s.params := by simp [State.finish]
@[simp] theorem State.finish_regs (s : State) (e : Effect) : (s.finish e).regs = (s.writeRegs e.writes).regs := rfl
@[simp] theorem State.finish_irqEn (s : State) (e : Effect) : (s.finish e).irqEn = s.irqEn := by simp [State.finish]
@[simp] theorem State.finish_busy (s : State) (e : Effect) : (s.finish e).busy = false := rfl
@[simp] theorem State.finish_err (s : State) (e : Effect) : (s.finish e).err = s.err := by simp [State.finish]
@[simp] theorem State.finish_errCode (s : State) (e : Effect) : (s.finish e).errCode = s.errCode := by simp [State.finish]
@[simp] theorem State.finish_z (s : State) (e : Effect) : (s.finish e).z = e.z.getD s.z := rfl
@[simp] theorem State.finish_cmp (s : State) (e : Effect) : (s.finish e).cmp = e.cmp.getD s.cmp := rfl
@[simp] theorem State.finish_busyErr (s : State) (e : Effect) : (s.finish e).busyErr = s.busyErr := by simp [State.finish]
@[simp] theorem State.finish_cmdReg (s : State) (e : Effect) : (s.finish e).cmdReg = s.cmdReg := by simp [State.finish]
@[simp] theorem State.finish_done (s : State) (e : Effect) : (s.finish e).done = true := rfl
@[simp] theorem State.finish_pending (s : State) (e : Effect) : (s.finish e).pending = s.pending := by simp [State.finish]
@[simp] theorem State.finish_reads (s : State) (e : Effect) : (s.finish e).reads = s.reads := by simp [State.finish]

@[simp] theorem State.accept_params (s : State) (w : Word) : (s.accept w).params = s.params := rfl
@[simp] theorem State.accept_regs (s : State) (w : Word) : (s.accept w).regs = s.regs := rfl
@[simp] theorem State.accept_irqEn (s : State) (w : Word) : (s.accept w).irqEn = s.irqEn := rfl
@[simp] theorem State.accept_busy (s : State) (w : Word) : (s.accept w).busy = true := rfl
@[simp] theorem State.accept_err (s : State) (w : Word) : (s.accept w).err = false := rfl
@[simp] theorem State.accept_errCode (s : State) (w : Word) : (s.accept w).errCode = none := rfl
@[simp] theorem State.accept_z (s : State) (w : Word) : (s.accept w).z = s.z := rfl
@[simp] theorem State.accept_cmp (s : State) (w : Word) : (s.accept w).cmp = s.cmp := rfl
@[simp] theorem State.accept_busyErr (s : State) (w : Word) : (s.accept w).busyErr = s.busyErr := rfl
@[simp] theorem State.accept_cmdReg (s : State) (w : Word) : (s.accept w).cmdReg = w := rfl
@[simp] theorem State.accept_done (s : State) (w : Word) : (s.accept w).done = false := rfl
@[simp] theorem State.accept_pending (s : State) (w : Word) : (s.accept w).pending = s.pending := rfl
@[simp] theorem State.accept_reads (s : State) (w : Word) : (s.accept w).reads = s.reads := rfl

@[simp] theorem State.resetBlock_params (s : State) : (s.resetBlock).params = s.params := rfl
@[simp] theorem State.resetBlock_regs (s : State) : (s.resetBlock).regs = Vector.replicate 8 0 := rfl
@[simp] theorem State.resetBlock_irqEn (s : State) : (s.resetBlock).irqEn = false := rfl
@[simp] theorem State.resetBlock_busy (s : State) : (s.resetBlock).busy = false := rfl
@[simp] theorem State.resetBlock_err (s : State) : (s.resetBlock).err = false := rfl
@[simp] theorem State.resetBlock_errCode (s : State) : (s.resetBlock).errCode = none := rfl
@[simp] theorem State.resetBlock_z (s : State) : (s.resetBlock).z = false := rfl
@[simp] theorem State.resetBlock_cmp (s : State) : (s.resetBlock).cmp = .eq := rfl
@[simp] theorem State.resetBlock_busyErr (s : State) : (s.resetBlock).busyErr = false := rfl
@[simp] theorem State.resetBlock_cmdReg (s : State) : (s.resetBlock).cmdReg = 0#32 := rfl
@[simp] theorem State.resetBlock_done (s : State) : (s.resetBlock).done = false := rfl
@[simp] theorem State.resetBlock_pending (s : State) : (s.resetBlock).pending = s.pending := rfl
@[simp] theorem State.resetBlock_reads (s : State) : (s.resetBlock).reads = s.reads := rfl

@[simp] theorem State.setReg_bound (s : State) (r : Reg) (v : Nat) : (s.setReg r v).bound = s.bound := rfl
@[simp] theorem State.setPending_reg (s : State) (es : List Event) (q : Reg) : (s.setPending es).reg q = s.reg q := rfl
@[simp] theorem State.setPending_bound (s : State) (es : List Event) : (s.setPending es).bound = s.bound := rfl
@[simp] theorem State.pushRead_reg (s : State) (v : Word) (q : Reg) : (s.pushRead v).reg q = s.reg q := rfl
@[simp] theorem State.pushRead_bound (s : State) (v : Word) : (s.pushRead v).bound = s.bound := rfl
@[simp] theorem State.setIrqEn_reg (s : State) (b : Bool) (q : Reg) : (s.setIrqEn b).reg q = s.reg q := rfl
@[simp] theorem State.setIrqEn_bound (s : State) (b : Bool) : (s.setIrqEn b).bound = s.bound := rfl
@[simp] theorem State.setBusyErr_reg (s : State) (b : Bool) (q : Reg) : (s.setBusyErr b).reg q = s.reg q := rfl
@[simp] theorem State.setBusyErr_bound (s : State) (b : Bool) : (s.setBusyErr b).bound = s.bound := rfl
@[simp] theorem State.clearDone_reg (s : State) (q : Reg) : (s.clearDone).reg q = s.reg q := rfl
@[simp] theorem State.clearDone_bound (s : State) : (s.clearDone).bound = s.bound := rfl
@[simp] theorem State.raiseError_reg (s : State) (c : CmdError) (q : Reg) : (s.raiseError c).reg q = s.reg q := rfl
@[simp] theorem State.raiseError_bound (s : State) (c : CmdError) : (s.raiseError c).bound = s.bound := rfl
@[simp] theorem State.finish_bound (s : State) (e : Effect) : (s.finish e).bound = s.bound := by simp [State.bound]
@[simp] theorem State.accept_reg (s : State) (w : Word) (q : Reg) : (s.accept w).reg q = s.reg q := rfl
@[simp] theorem State.accept_bound (s : State) (w : Word) : (s.accept w).bound = s.bound := rfl
@[simp] theorem State.resetBlock_bound (s : State) : (s.resetBlock).bound = s.bound := rfl
@[simp] theorem State.finish_reg (s : State) (e : Effect) (q : Reg) :
    (s.finish e).reg q = (s.writeRegs e.writes).reg q := rfl

/-- After a reset every register reads 0 (R241). -/
@[simp] theorem State.resetBlock_reg (s : State) (q : Reg) : s.resetBlock.reg q = 0 := by
  simp [State.reg]

/-- A register reads what was last written to it, and a write leaves every other register alone (R20). -/
theorem State.setReg_reg (s : State) (r : Reg) (v : Nat) (q : Reg) :
    (s.setReg r v).reg q = if r = q then v else s.reg q := by
  simp only [State.reg, State.setReg_regs, Vector.getElem_set, BitVec.toNat_inj]

@[simp] theorem State.setReg_reg_same (s : State) (r : Reg) (v : Nat) : (s.setReg r v).reg r = v := by
  simp [State.setReg_reg]

theorem State.setReg_reg_other (s : State) {r q : Reg} (v : Nat) (h : q ≠ r) : (s.setReg r v).reg q = s.reg q := by
  simp [State.setReg_reg, Ne.symm h]

/-- A register no write names keeps its value. -/
theorem State.writeRegs_reg_other (s : State) (ws : List (Reg × Nat)) (q : Reg) (h : ∀ w ∈ ws, w.1 ≠ q) :
    (s.writeRegs ws).reg q = s.reg q := by
  induction ws generalizing s with
  | nil => rfl
  | cons w ws ih =>
    rw [State.writeRegs, ih _ (fun w hw => h w (List.mem_cons_of_mem _ hw)),
      State.setReg_reg_other _ _ (Ne.symm (h w List.mem_cons_self))]

/-- Two states with the same registers read the same. -/
theorem State.reg_congr {s t : State} (h : s.regs = t.regs) (q : Reg) : s.reg q = t.reg q := by
  simp [State.reg, h]

end Sys2Proof.Machine
end

