-- ==== Sys2Proof/Laws/Completion.lean ====
section
/-! SUPPORT. What a completion can do, said once: the two outcomes of `complete`, and what every command's result is. -/

namespace Sys2Proof.Laws

open Sys2Proof.Machine

/-- A completion with an error leaves what R213 says. -/
theorem errorCompletion_raiseError (s : State) (c : CmdError) : ErrorCompletion s c (s.raiseError c) := by
  simp [ErrorCompletion, CompletionFrame]

/-- Every completion clears BUSY, sets DONE and keeps the rest of the frame. -/
theorem completionFrame_complete (s : State) (r : CmdResult) : CompletionFrame s (s.complete r) := by
  cases r <;> simp [State.complete, CompletionFrame]

/-- A successful completion with no destination. -/
theorem successful_noDest (s : State) (z : Option Bool) (c : Option CmpFlag) :
    SuccessfulCompletion s [] (z.getD s.z) (c.getD s.cmp) (s.complete (.ok { writes := [], z := z, cmp := c })) := by
  simp [State.complete, SuccessfulCompletion, CompletionFrame, State.writeRegs]

/-- A successful completion with one destination. -/
theorem successful_write (s : State) (rd : Reg) (v : Nat) (z : Bool) :
    SuccessfulCompletion s [(rd, v)] z s.cmp (s.complete (.ok { writes := [(rd, v)], z := some z, cmp := none })) := by
  refine ⟨completionFrame_complete s _, by simp [State.complete], by simp [State.complete], by simp [State.complete],
    by simp [State.complete], ?_, ?_⟩
  · simp [State.complete, State.writeRegs]
  · intro q hq
    have : q ≠ rd := by rintro rfl; exact hq v (by simp)
    simp [State.complete, State.writeRegs, State.setReg_reg_other _ _ this]

theorem successful_oneDest (s : State) (rd : Reg) (v : Nat) :
    SuccessfulCompletion s [(rd, v)] (decide (v = 0)) s.cmp (s.complete (.ok (oneDest rd v))) :=
  successful_write s rd v _

/-- A successful completion with two different destinations. -/
theorem successful_twoDest (s : State) {rd rd2 : Reg} (v v2 : Nat) (z : Bool) (h : rd ≠ rd2) :
    SuccessfulCompletion s [(rd, v), (rd2, v2)] z s.cmp (s.complete (.ok (twoDest rd rd2 v v2 z))) := by
  refine ⟨completionFrame_complete s _, by simp [State.complete, twoDest], by simp [State.complete, twoDest],
    by simp [State.complete, twoDest], by simp [State.complete, twoDest], ?_, ?_⟩
  · intro r w hw
    simp only [List.mem_cons, Prod.mk.injEq, List.not_mem_nil, or_false] at hw
    obtain ⟨rfl, rfl⟩ | ⟨rfl, rfl⟩ := hw
    · simp [State.complete, twoDest, State.writeRegs, State.setReg_reg_other _ _ h]
    · simp [State.complete, twoDest, State.writeRegs]
  · intro q hq
    have h1 : q ≠ rd := by rintro rfl; exact hq v (by simp)
    have h2 : q ≠ rd2 := by rintro rfl; exact hq v2 (by simp)
    simp [State.complete, twoDest, State.writeRegs, State.setReg_reg_other _ _ h1, State.setReg_reg_other _ _ h2]

/-- The result of a modular command is DIV_ZERO or one destination (R110). -/
theorem modResult_cases (rd : Reg) (m r : Nat) :
    (m = 0 ∧ modResult rd m r = .error .divZero) ∨ (m ≠ 0 ∧ modResult rd m r = .ok (oneDest rd r)) := by
  unfold modResult
  by_cases h : m = 0 <;> simp [h]

/-- What a command's result may write: its destinations, CMP at the CMP command alone, nothing at NOP (R34, R35, R171). -/
def EffectShape (i : Instr) (r : CmdResult) : Prop :=
  ∀ e, r = .ok e → (∀ w ∈ e.writes, w.1 ∈ destsOf i) ∧ ((∃ rs1 rs2, i = .cmp rs1 rs2) ∨ e.cmp = none) ∧
    (i = .nop → e.z = none)

theorem effectShape_error (i : Instr) (c : CmdError) : EffectShape i (.error c) := nofun

theorem effectShape_writes {i : Instr} {ws : List (Reg × Nat)} {z : Option Bool} (hi : i ≠ .nop)
    (h : ∀ w ∈ ws, w.1 ∈ destsOf i) : EffectShape i (.ok { writes := ws, z := z, cmp := none }) := by
  rintro e ⟨⟩
  exact ⟨h, .inr rfl, fun hn => absurd hn hi⟩

theorem effectShape_oneDest {i : Instr} (hi : i ≠ .nop) {rd : Reg} (v : Nat) (h : rd ∈ destsOf i) :
    EffectShape i (.ok (oneDest rd v)) :=
  effectShape_writes hi (by simpa using h)

theorem effectShape_modResult {i : Instr} (hi : i ≠ .nop) {rd : Reg} (m v : Nat) (h : rd ∈ destsOf i) :
    EffectShape i (modResult rd m v) := by
  obtain ⟨-, e⟩ | ⟨-, e⟩ := modResult_cases rd m v <;> rw [e]
  · exact effectShape_error _ _
  · exact effectShape_oneDest hi v h

theorem effectShape_ite {i : Instr} {p : Prop} [Decidable p] {a b : CmdResult} (ha : EffectShape i a)
    (hb : EffectShape i b) : EffectShape i (if p then a else b) := by
  split
  · exact ha
  · exact hb

/-- Every command answers a completion with a result of its shape. -/
theorem exec_shape (i : Instr) (s : State) : ∃ r : CmdResult, exec i s = .next (s.complete r) ∧ EffectShape i r := by
  cases i with
  | nop => exact ⟨_, rfl, by rintro e ⟨⟩; simp⟩
  | mul => exact ⟨_, rfl, effectShape_ite (effectShape_error _ _) (effectShape_writes (by simp) (by simp [destsOf]))⟩
  | modmul => exact ⟨_, rfl, effectShape_modResult (by simp) _ _ (by simp [destsOf])⟩
  | mod => exact ⟨_, rfl, effectShape_modResult (by simp) _ _ (by simp [destsOf])⟩
  | modadd => exact ⟨_, rfl, effectShape_modResult (by simp) _ _ (by simp [destsOf])⟩
  | modsub => exact ⟨_, rfl, effectShape_modResult (by simp) _ _ (by simp [destsOf])⟩
  | modexp => exact ⟨_, rfl, effectShape_modResult (by simp) _ _ (by simp [destsOf])⟩
  | gcd => exact ⟨_, rfl, effectShape_oneDest (by simp) _ (by simp [destsOf])⟩
  | modinv =>
    exact ⟨_, rfl, effectShape_ite (effectShape_error _ _)
      (effectShape_ite (effectShape_error _ _) (effectShape_oneDest (by simp) _ (by simp [destsOf])))⟩
  | lcm =>
    exact ⟨_, rfl, effectShape_ite (effectShape_error _ _)
      (effectShape_ite (effectShape_error _ _) (effectShape_oneDest (by simp) _ (by simp [destsOf])))⟩
  | mov => exact ⟨_, rfl, effectShape_oneDest (by simp) _ (by simp [destsOf])⟩
  | movi => exact ⟨_, rfl, effectShape_oneDest (by simp) _ (by simp [destsOf])⟩
  | add => exact ⟨_, rfl, effectShape_ite (effectShape_error _ _) (effectShape_oneDest (by simp) _ (by simp [destsOf]))⟩
  | sub => exact ⟨_, rfl, effectShape_ite (effectShape_error _ _) (effectShape_oneDest (by simp) _ (by simp [destsOf]))⟩
  | divmod =>
    exact ⟨_, rfl, effectShape_ite (effectShape_error _ _)
      (effectShape_ite (effectShape_error _ _) (effectShape_writes (by simp) (by simp [destsOf])))⟩
  | cmp rs1 rs2 => exact ⟨_, rfl, by rintro e ⟨⟩; simp⟩
  | smod => exact ⟨_, rfl, effectShape_modResult (by simp) _ _ (by simp [destsOf])⟩
  | sremap => exact ⟨_, rfl, effectShape_ite (effectShape_error _ _) (effectShape_writes (by simp) (by simp [destsOf]))⟩

end Sys2Proof.Laws
end

