-- ==== Sys2Proof/Laws/Bus.lean ====
section
/-! SUPPORT. The address map, and everything one host access can do to the block. -/

namespace Sys2Proof.Laws

open Sys2Proof.Machine

/-- The offset of a window word is below the end of the window (R51). -/
theorem windowOffset_lt {p : Params} {r : Reg} {k : Nat} (hk : k < p.words) :
    windowOffset p r k < 0x1000 + p.width := by
  have hr := r.isLt
  have h : r.toNat * (p.width / 8) ≤ 7 * (p.width / 8) := Nat.mul_le_mul_right _ (by omega)
  unfold windowOffset Params.width at *
  omega

/-- The offset `WIN(r) + 4*k` selects word `k` of register `r` (R52). -/
theorem locate_windowOffset {p : Params} {r : Reg} {k : Nat} (hk : k < p.words) :
    locate p (windowOffset p r k) = .window r k := by
  have hlt := windowOffset_lt (r := r) hk
  have hr := r.isLt
  have hw : p.width / 8 = p.regBytes := by unfold Params.width Params.regBytes; omega
  have hb : 4 * k < p.regBytes := by unfold Params.regBytes; omega
  have e : windowOffset p r k - 0x1000 = r.toNat * p.regBytes + 4 * k := by unfold windowOffset; rw [hw]; omega
  have hge : 0x1000 ≤ windowOffset p r k := by unfold windowOffset; omega
  unfold locate
  rw [if_neg (by omega), if_neg (by omega), if_neg (by omega), if_neg (by omega), if_neg (by omega), if_neg (by omega),
    if_pos ⟨hge, hlt⟩, e]
  have d : (r.toNat * p.regBytes + 4 * k) / p.regBytes = r.toNat := by
    rw [Nat.add_comm, Nat.add_mul_div_right _ _ (by omega), Nat.div_eq_of_lt hb, Nat.zero_add]
  have m : (r.toNat * p.regBytes + 4 * k) % p.regBytes = 4 * k := by
    rw [Nat.add_comm, Nat.add_mul_mod_self_right, Nat.mod_eq_of_lt hb]
  rw [d, m]
  simp

/-- An aligned offset that selects a window word is that word's offset (R52). -/
theorem locate_eq_window {p : Params} {off : Nat} {r : Reg} {k : Nat} (h : locate p off = .window r k)
    (al : off % 4 = 0) : k < p.words ∧ off = windowOffset p r k := by
  unfold locate at h
  split at h <;> [cases h; skip]
  split at h <;> [cases h; skip]
  split at h <;> [cases h; skip]
  split at h <;> [cases h; skip]
  split at h <;> [cases h; skip]
  split at h <;> [cases h; skip]
  split at h
  case isFalse => cases h
  rename_i hw
  obtain ⟨rfl, rfl⟩ := Target.window.inj h
  obtain ⟨x, rfl⟩ : ∃ x, off = 0x1000 + x := ⟨off - 0x1000, by omega⟩
  have hx : x < p.regBytes * 8 := by unfold Params.width Params.regBytes at *; omega
  have hdiv : x / p.regBytes < 8 := Nat.div_lt_of_lt_mul hx
  have hpos : 0 < p.regBytes := by rcases Nat.eq_zero_or_pos p.regBytes with h0 | h0 <;> omega
  have hmod := Nat.mod_lt x hpos
  have hsplit := Nat.div_add_mod x p.regBytes
  have hw8 : p.width / 8 = p.regBytes := by unfold Params.width Params.regBytes; omega
  have h4 : p.regBytes = 4 * p.words := rfl
  have hm4 : x % p.regBytes % 4 = 0 := by
    rw [h4, Nat.mod_mul_right_mod]; omega
  simp only [Nat.add_sub_cancel_left, windowOffset, hw8, BitVec.toNat_ofNat]
  rw [Nat.mod_eq_of_lt (by omega : x / p.regBytes < 2 ^ 3), Nat.mul_comm]
  omega

/-- An access is taken exactly when it is 32 bits wide and aligned (R57). -/
theorem accessTaken_iff (off size : Nat) : accessTaken off size = true ↔ size = 4 ∧ off % 4 = 0 := by
  simp [accessTaken]

/-- The offset of a window word is aligned, so a 32-bit access of it is taken (R52, R57). -/
theorem accessTaken_window (p : Params) (r : Reg) (k : Nat) : accessTaken (windowOffset p r k) 4 = true := by
  rw [accessTaken_iff]
  refine ⟨rfl, ?_⟩
  have e : 32 * p.words / 8 = 4 * p.words := by omega
  have c : r.toNat * (4 * p.words) = 4 * (r.toNat * p.words) := by ring
  unfold windowOffset Params.width
  rw [e, c]
  omega

section Accesses
variable (s : State) (d : Word)

/-! What each register answers to a 32-bit access, one lemma per register and direction. -/

theorem hostWrite_id : hostWrite s 0x000 4 d = s := rfl
theorem hostWrite_ctrl :
    hostWrite s 0x004 4 d = if d.getLsbD 1 then s.resetBlock else s.setIrqEn (d.getLsbD 0) := rfl
theorem hostWrite_status : hostWrite s 0x008 4 d = if d.getLsbD 16 then s.setBusyErr false else s := rfl
theorem hostWrite_cmd : hostWrite s 0x00C 4 d = if s.busy then s.setBusyErr true else s.accept d := rfl
theorem hostWrite_irqStatus : hostWrite s 0x010 4 d = if d.getLsbD 0 then s.clearDone else s := rfl
theorem hostWrite_param : hostWrite s 0x014 4 d = s := rfl
theorem hostRead_id : hostRead s 0x000 4 = s.pushRead s.params.idValue := rfl
theorem hostRead_ctrl : hostRead s 0x004 4 = s.pushRead s.ctrlWord := rfl
theorem hostRead_status : hostRead s 0x008 4 = s.pushRead s.statusWord := rfl
theorem hostRead_cmd : hostRead s 0x00C 4 = s.pushRead s.cmdReg := rfl
theorem hostRead_irqStatus : hostRead s 0x010 4 = s.pushRead s.irqStatusWord := rfl
theorem hostRead_param : hostRead s 0x014 4 = s.pushRead (paramWord s.params) := rfl

theorem hostWrite_window {r : Reg} {k : Nat} (hk : k < s.params.words) :
    hostWrite s (windowOffset s.params r k) 4 d =
      if s.busy then s.setBusyErr true else s.setReg r (setWindowWord (s.reg r) k d) := by
  rw [hostWrite, if_pos (accessTaken_window _ _ _), locate_windowOffset hk, writeTarget]

theorem hostRead_window {r : Reg} {k : Nat} (hk : k < s.params.words) :
    hostRead s (windowOffset s.params r k) 4 =
      if s.busy then (s.setBusyErr true).pushRead 0#32 else s.pushRead (windowWord (s.reg r) k) := by
  rw [hostRead, if_pos (accessTaken_window _ _ _), locate_windowOffset hk]
  cases h : s.busy <;> simp [readEffect, readWord, h]

end Accesses

/-- The access is a 32-bit one of a word of the operand window while a command is in progress (R55). -/
abbrev WindowRefused (s : State) (off size : Nat) : Prop :=
  s.busy = true ∧ size = 4 ∧ ∃ r k, k < s.params.words ∧ off = windowOffset s.params r k

/-- Everything a read does: it returns a word, and sets BUSYERR exactly if the window refuses it (R55, R60). -/
theorem hostRead_cases (s : State) (off size : Nat) :
    ∃ v, (¬ WindowRefused s off size ∧ hostRead s off size = s.pushRead v) ∨
      (WindowRefused s off size ∧ hostRead s off size = (s.setBusyErr true).pushRead v) := by
  by_cases hw : WindowRefused s off size
  · obtain ⟨hb, rfl, r, k, hk, rfl⟩ := id hw
    exact ⟨0#32, .inr ⟨hw, by rw [hostRead_window s hk, if_pos hb]⟩⟩
  · unfold hostRead
    split
    · obtain ⟨hs, hal⟩ := (accessTaken_iff off size).mp ‹_›
      refine ⟨readWord s (locate s.params off), .inl ⟨hw, ?_⟩⟩
      cases hl : locate s.params off with
      | window r k =>
        have hb : ¬ s.busy = true := fun hb => hw ⟨hb, hs, r, k, locate_eq_window hl hal⟩
        simp [readEffect, hb]
      | _ => rfl
    · exact ⟨0#32, .inl ⟨hw, rfl⟩⟩

/-- Everything a write can do (R24 to R40, R54, R55, R57, R58). -/
theorem hostWrite_cases (s : State) (off size : Nat) (d : Word) :
    hostWrite s off size d = s ∨
    (off = 0x004 ∧ size = 4 ∧ d.getLsbD 1 = true ∧ hostWrite s off size d = s.resetBlock) ∨
    (off = 0x004 ∧ size = 4 ∧ hostWrite s off size d = s.setIrqEn (d.getLsbD 0)) ∨
    (off = 0x008 ∧ size = 4 ∧ d.getLsbD 16 = true ∧ hostWrite s off size d = s.setBusyErr false) ∨
    (off = 0x00C ∧ size = 4 ∧ s.busy = false ∧ hostWrite s off size d = s.accept d) ∨
    (s.busy = true ∧ size = 4 ∧ (off = 0x00C ∨ ∃ r k, k < s.params.words ∧ off = windowOffset s.params r k) ∧
      hostWrite s off size d = s.setBusyErr true) ∨
    (off = 0x010 ∧ size = 4 ∧ d.getLsbD 0 = true ∧ hostWrite s off size d = s.clearDone) ∨
    (s.busy = false ∧ size = 4 ∧ ∃ r k, k < s.params.words ∧ off = windowOffset s.params r k ∧
      hostWrite s off size d = s.setReg r (setWindowWord (s.reg r) k d)) := by
  unfold hostWrite
  by_cases ht : accessTaken off size = true
  case neg => simp [ht]
  obtain ⟨hs, hal⟩ := (accessTaken_iff off size).mp ht
  rw [if_pos ht]
  by_cases h4 : off = 0x004
  · subst h4
    by_cases h : d.getLsbD 1 = true <;> simp_all [locate, writeTarget]
  by_cases h8 : off = 0x008
  · subst h8
    by_cases h : d.getLsbD 16 = true <;> simp_all [locate, writeTarget]
  by_cases hC : off = 0x00C
  · subst hC
    by_cases h : s.busy = true <;> simp_all [locate, writeTarget]
  by_cases h10 : off = 0x010
  · subst h10
    by_cases h : d.getLsbD 0 = true <;> simp_all [locate, writeTarget]
  cases hl : locate s.params off with
  | window r k =>
    obtain ⟨hk, he⟩ := locate_eq_window hl hal
    by_cases h : s.busy = true
    · exact .inr (.inr (.inr (.inr (.inr (.inl ⟨h, hs, .inr ⟨r, k, hk, he⟩, by simp [writeTarget, h]⟩)))))
    · have h' : s.busy = false := by simpa using h
      exact .inr (.inr (.inr (.inr (.inr (.inr (.inr ⟨h', hs, r, k, hk, he, by simp [writeTarget, h']⟩))))))
  | id => exact .inl rfl
  | param => exact .inl rfl
  | unmapped => exact .inl rfl
  | ctrl => exact absurd hl (by unfold locate; simp [h4, h8, hC, h10]; grind)
  | status => exact absurd hl (by unfold locate; simp [h4, h8, hC, h10]; grind)
  | cmd => exact absurd hl (by unfold locate; simp [h4, h8, hC, h10]; grind)
  | irqStatus => exact absurd hl (by unfold locate; simp [h4, h8, hC, h10]; grind)

end Sys2Proof.Laws
end

