-- ==== Sys2Proof/Laws/Decode.lean ====
section
/-! SUPPORT. The fields of the words the encoder builds, and what decoding answers, read once off its definition. -/

namespace Sys2Proof.Laws

/-- Concatenation as arithmetic (R8). -/
theorem append_toNat {m n : Nat} (x : BitVec m) (y : BitVec n) : (x ++ y).toNat = x.toNat * 2 ^ n + y.toNat := by
  rw [BitVec.toNat_append, ← Nat.shiftLeft_add_eq_or_of_lt y.isLt, Nat.shiftLeft_eq]

theorem wordR_toNat (op : BitVec 8) (rd rd2 rs1 rs2 rs3 : Reg) :
    (wordR op rd rd2 rs1 rs2 rs3).toNat =
      op.toNat + 2 ^ 8 * rd.toNat + 2 ^ 11 * rd2.toNat + 2 ^ 14 * rs1.toNat + 2 ^ 17 * rs2.toNat + 2 ^ 20 * rs3.toNat := by
  have h : (wordR op rd rd2 rs1 rs2 rs3).toNat =
      (((((0 * 2 ^ 3 + rs3.toNat) * 2 ^ 3 + rs2.toNat) * 2 ^ 3 + rs1.toNat) * 2 ^ 3 + rd2.toNat) * 2 ^ 3 + rd.toNat) * 2 ^ 8
        + op.toNat := by
    unfold wordR
    iterate 6 rw [append_toNat]
    rfl
  omega

theorem wordI_toNat (op : BitVec 8) (rd : Reg) (imm16 : BitVec 16) :
    (wordI op rd imm16).toNat = op.toNat + 2 ^ 8 * rd.toNat + 2 ^ 16 * imm16.toNat := by
  have h : (wordI op rd imm16).toNat = ((imm16.toNat * 2 ^ 5 + 0) * 2 ^ 3 + rd.toNat) * 2 ^ 8 + op.toNat := by
    unfold wordI
    iterate 3 rw [append_toNat]
    rfl
  omega

/-- A field of a word as arithmetic (R8). -/
theorem field_toNat (w : Word) (lo len : Nat) : (w.extractLsb' lo len).toNat = w.toNat / 2 ^ lo % 2 ^ len := by
  rw [BitVec.extractLsb'_toNat, Nat.shiftRight_eq_div_pow]

section Fields
variable (op : BitVec 8) (rd rd2 rs1 rs2 rs3 : Reg) (imm16 : BitVec 16)

@[simp] theorem opcodeField_wordR : opcodeField (wordR op rd rd2 rs1 rs2 rs3) = op := by
  apply BitVec.eq_of_toNat_eq; rw [opcodeField, field_toNat, wordR_toNat]; omega

@[simp] theorem rdField_wordR : rdField (wordR op rd rd2 rs1 rs2 rs3) = rd := by
  apply BitVec.eq_of_toNat_eq; rw [rdField, field_toNat, wordR_toNat]; omega

@[simp] theorem rd2Field_wordR : rd2Field (wordR op rd rd2 rs1 rs2 rs3) = rd2 := by
  apply BitVec.eq_of_toNat_eq; rw [rd2Field, field_toNat, wordR_toNat]; omega

@[simp] theorem rs1Field_wordR : rs1Field (wordR op rd rd2 rs1 rs2 rs3) = rs1 := by
  apply BitVec.eq_of_toNat_eq; rw [rs1Field, field_toNat, wordR_toNat]; omega

@[simp] theorem rs2Field_wordR : rs2Field (wordR op rd rd2 rs1 rs2 rs3) = rs2 := by
  apply BitVec.eq_of_toNat_eq; rw [rs2Field, field_toNat, wordR_toNat]; omega

@[simp] theorem rs3Field_wordR : rs3Field (wordR op rd rd2 rs1 rs2 rs3) = rs3 := by
  apply BitVec.eq_of_toNat_eq; rw [rs3Field, field_toNat, wordR_toNat]; omega

/-- The reserved field of format R is encoded as 0 (R81). -/
theorem wordR_reserved : (wordR op rd rd2 rs1 rs2 rs3).extractLsb' 23 9 = 0#9 := by
  apply BitVec.eq_of_toNat_eq; rw [field_toNat, wordR_toNat, BitVec.toNat_ofNat]; omega

@[simp] theorem opcodeField_wordI : opcodeField (wordI op rd imm16) = op := by
  apply BitVec.eq_of_toNat_eq; rw [opcodeField, field_toNat, wordI_toNat]; omega

@[simp] theorem rdField_wordI : rdField (wordI op rd imm16) = rd := by
  apply BitVec.eq_of_toNat_eq; rw [rdField, field_toNat, wordI_toNat]; omega

@[simp] theorem imm16Field_wordI : imm16Field (wordI op rd imm16) = imm16 := by
  apply BitVec.eq_of_toNat_eq; rw [imm16Field, field_toNat, wordI_toNat]; omega

/-- The reserved field of format I is encoded as 0 (R82). -/
theorem wordI_reserved : (wordI op rd imm16).extractLsb' 11 5 = 0#5 := by
  apply BitVec.eq_of_toNat_eq; rw [field_toNat, wordI_toNat, BitVec.toNat_ofNat]; omega

end Fields

/-- A word of format R has clear reserved bits when `w[31:23]` is 0 (R87). -/
theorem reservedClear_formatR {w : Word} (h : opcodeField w ≠ 0x41#8) :
    reservedClear w = (w.extractLsb' 23 9 == 0#9) := by
  rw [reservedClear, if_neg h]

/-- A word of format I has clear reserved bits when `w[15:11]` is 0 (R87). -/
theorem reservedClear_formatI {w : Word} (h : opcodeField w = 0x41#8) :
    reservedClear w = (w.extractLsb' 11 5 == 0#5) := by
  rw [reservedClear, if_pos h]

/-- What a word decodes to when it decodes: its opcode's command, with clear reserved bits. -/
theorem decode_ok_iff (w : Word) (i : Instr) : decode w = .ok i ↔ instrOf w = some i ∧ reservedClear w = true := by
  unfold decode
  cases h : instrOf w with
  | none => simp
  | some j =>
    cases hr : reservedClear w <;> simp

/-- A word is ILLEGAL_OPCODE exactly when its opcode selects no command (R88). -/
theorem decode_illegal_iff (w : Word) : decode w = .error .illegalOpcode ↔ instrOf w = none := by
  unfold decode
  cases h : instrOf w with
  | none => simp
  | some j => cases hr : reservedClear w <;> simp

/-- A word is BAD_FORM by its bits exactly when its opcode is assigned and a reserved bit is set (R87). -/
theorem decode_badForm_iff (w : Word) :
    decode w = .error .badForm ↔ (instrOf w).isSome = true ∧ reservedClear w = false := by
  unfold decode
  cases h : instrOf w with
  | none => simp
  | some j => cases hr : reservedClear w <;> simp

end Sys2Proof.Laws
end

