-- ==== Sys2Proof/Laws/PerInstr.lean ====
section
/-! SUPPORT. A fact about every command as syntax: its encoding carries its opcode and clear reserved bits (R81, R82, R85). -/

namespace Sys2Proof.Laws

/-- The opcode of a command (R85). -/
def opcodeOf : Instr → BitVec 8
  | .nop => 0x00
  | .mul _ _ _ _ => 0x10
  | .modmul _ _ _ _ => 0x11
  | .mod _ _ _ => 0x12
  | .modadd _ _ _ _ => 0x13
  | .modsub _ _ _ _ => 0x14
  | .modexp _ _ _ _ => 0x20
  | .gcd _ _ _ => 0x30
  | .modinv _ _ _ => 0x31
  | .lcm _ _ _ => 0x32
  | .mov _ _ => 0x40
  | .movi _ _ => 0x41
  | .add _ _ _ => 0x42
  | .sub _ _ _ => 0x43
  | .divmod _ _ _ _ => 0x44
  | .cmp _ _ => 0x45
  | .smod _ _ _ => 0x46
  | .sremap _ _ _ => 0x47

/-- The encoding of the command has the command's opcode and its reserved bits clear. -/
def EncodeShape.Statement (i : Instr) : Prop :=
  opcodeField (encode i) = opcodeOf i ∧ reservedClear (encode i) = true

theorem EncodeShape.formatR {op : BitVec 8} (h : op ≠ 0x41#8) (rd rd2 rs1 rs2 rs3 : Reg) :
    opcodeField (wordR op rd rd2 rs1 rs2 rs3) = op ∧ reservedClear (wordR op rd rd2 rs1 rs2 rs3) = true := by
  refine ⟨by simp, ?_⟩
  rw [reservedClear_formatR (by simpa using h), wordR_reserved]
  rfl

theorem EncodeShape.nop : EncodeShape.Statement .nop :=
  EncodeShape.formatR (by decide) _ _ _ _ _

theorem EncodeShape.mul (a b c d : Reg) : EncodeShape.Statement (.mul a b c d) :=
  EncodeShape.formatR (by decide) _ _ _ _ _

theorem EncodeShape.modmul (a b c d : Reg) : EncodeShape.Statement (.modmul a b c d) :=
  EncodeShape.formatR (by decide) _ _ _ _ _

theorem EncodeShape.mod (a b c : Reg) : EncodeShape.Statement (.mod a b c) :=
  EncodeShape.formatR (by decide) _ _ _ _ _

theorem EncodeShape.modadd (a b c d : Reg) : EncodeShape.Statement (.modadd a b c d) :=
  EncodeShape.formatR (by decide) _ _ _ _ _

theorem EncodeShape.modsub (a b c d : Reg) : EncodeShape.Statement (.modsub a b c d) :=
  EncodeShape.formatR (by decide) _ _ _ _ _

theorem EncodeShape.modexp (a b c d : Reg) : EncodeShape.Statement (.modexp a b c d) :=
  EncodeShape.formatR (by decide) _ _ _ _ _

theorem EncodeShape.gcd (a b c : Reg) : EncodeShape.Statement (.gcd a b c) :=
  EncodeShape.formatR (by decide) _ _ _ _ _

theorem EncodeShape.modinv (a b c : Reg) : EncodeShape.Statement (.modinv a b c) :=
  EncodeShape.formatR (by decide) _ _ _ _ _

theorem EncodeShape.lcm (a b c : Reg) : EncodeShape.Statement (.lcm a b c) :=
  EncodeShape.formatR (by decide) _ _ _ _ _

theorem EncodeShape.mov (a b : Reg) : EncodeShape.Statement (.mov a b) :=
  EncodeShape.formatR (by decide) _ _ _ _ _

theorem EncodeShape.movi (a : Reg) (imm16 : BitVec 16) : EncodeShape.Statement (.movi a imm16) := by
  refine ⟨by simp [encode, opcodeOf], ?_⟩
  rw [encode, reservedClear_formatI (by simp), wordI_reserved]
  rfl

theorem EncodeShape.add (a b c : Reg) : EncodeShape.Statement (.add a b c) :=
  EncodeShape.formatR (by decide) _ _ _ _ _

theorem EncodeShape.sub (a b c : Reg) : EncodeShape.Statement (.sub a b c) :=
  EncodeShape.formatR (by decide) _ _ _ _ _

theorem EncodeShape.divmod (a b c d : Reg) : EncodeShape.Statement (.divmod a b c d) :=
  EncodeShape.formatR (by decide) _ _ _ _ _

theorem EncodeShape.cmp (a b : Reg) : EncodeShape.Statement (.cmp a b) :=
  EncodeShape.formatR (by decide) _ _ _ _ _

theorem EncodeShape.smod (a b c : Reg) : EncodeShape.Statement (.smod a b c) :=
  EncodeShape.formatR (by decide) _ _ _ _ _

theorem EncodeShape.sremap (a b c : Reg) : EncodeShape.Statement (.sremap a b c) :=
  EncodeShape.formatR (by decide) _ _ _ _ _

end Sys2Proof.Laws
end

