-- ==== Sys2Proof/Laws/Step.lean ====
section
/-! SUPPORT. Everything one step can do, said once, for the invariants and the whole-machine rules to cite. -/

namespace Sys2Proof.Laws

open Sys2Proof.Machine

/-- Everything the engine's turn can do (R33, R90, R212). -/
theorem engineTurn_cases {s t : State} (h : engineTurn s = .next t) :
    (s.busy = false ∧ t = s) ∨
    (s.busy = true ∧ ∃ c, decode s.cmdReg = .error c ∧ t = s.raiseError c) ∨
    (s.busy = true ∧ ∃ i, decode s.cmdReg = .ok i ∧ exec i s = .next t) := by
  unfold engineTurn at h
  split at h
  · cases hd : decode s.cmdReg with
    | error c => rw [hd] at h; exact .inr (.inl ⟨‹_›, c, rfl, (Host.Outcome.next.inj h).symm⟩)
    | ok i => rw [hd] at h; exact .inr (.inr ⟨‹_›, i, rfl, h⟩)
  · exact .inl ⟨by simpa using ‹¬ s.busy = true›, (Host.Outcome.next.inj h).symm⟩

/-- Everything a step can do: the engine's turn, a hardware reset, a host read, a host write. -/
theorem step_cases {s t : State} (h : step s = .next t) :
    (∃ s0, EngineNext s s0 ∧ engineTurn s0 = .next t) ∨
    (∃ es, s.pending = .hardReset :: es ∧ t = (s.setPending es).resetBlock) ∨
    (∃ es off size, s.pending = .host (.read off size) :: es ∧ off < s.params.aperture ∧
      t = hostRead (s.setPending es) off size) ∨
    (∃ es off size d, s.pending = .host (.write off size d) :: es ∧ off < s.params.aperture ∧
      t = hostWrite (s.setPending es) off size d) := by
  unfold step nextEvent at h
  split at h
  · exact .inl ⟨s, .inl ⟨‹_›, rfl⟩, h⟩
  · rename_i e es hp
    cases e with
    | engine => exact .inl ⟨_, .inr ⟨es, hp, rfl⟩, h⟩
    | hardReset => exact .inr (.inl ⟨es, hp, (Host.Outcome.next.inj h).symm⟩)
    | host a =>
      simp only [runEvent] at h
      cases a with
      | read off size =>
        simp only [hostAccess] at h
        split at h
        · exact .inr (.inr (.inl ⟨es, off, size, hp, ‹_›, (Host.Outcome.next.inj h).symm⟩))
        · cases h
      | write off size d =>
        simp only [hostAccess] at h
        split at h
        · exact .inr (.inr (.inr ⟨es, off, size, d, hp, ‹_›, (Host.Outcome.next.inj h).symm⟩))
        · cases h

/-- The engine's turn is what the step does when it comes next. -/
theorem step_of_engineNext {s s0 : State} (h : EngineNext s s0) : step s = engineTurn s0 := by
  obtain ⟨hp, rfl⟩ | ⟨es, hp, rfl⟩ := h <;> simp [step, nextEvent, hp, runEvent]

/-- A host write inside the aperture is what the step does when it comes next. -/
theorem step_of_write {s : State} {off size : Nat} {d : Word} {es : List Event}
    (h : s.pending = .host (.write off size d) :: es) (ha : off < s.params.aperture) :
    step s = .next (hostWrite (s.setPending es) off size d) := by
  simp [step, nextEvent, h, runEvent, hostAccess, ha]

/-- A host read inside the aperture is what the step does when it comes next. -/
theorem step_of_read {s : State} {off size : Nat} {es : List Event}
    (h : s.pending = .host (.read off size) :: es) (ha : off < s.params.aperture) :
    step s = .next (hostRead (s.setPending es) off size) := by
  simp [step, nextEvent, h, runEvent, hostAccess, ha]

/-- Taking an event off the schedule changes nothing else. -/
theorem EngineNext.fields {s s0 : State} (h : EngineNext s s0) : s0 = { s with pending := s0.pending } := by
  obtain ⟨-, rfl⟩ | ⟨es, -, rfl⟩ := h <;> rfl

/-- A run of several steps is its first step and the rest. -/
theorem run_next (M : Host.Core) {s t : M.State} (m : Nat) (h : M.step s = .next t) :
    M.run (m + 1) s = M.run m t := by
  rw [Host.Core.run.eq_def]
  simp only [h]

end Sys2Proof.Laws
end

