-- ==== Sys2Proof/Tests/Slice0.lean ====
section
/-! SUPPORT. Tests: the spec's worked examples and vectors (named in each comment), one step each, and for every statement
with hypotheses a state and operands that meet them. Every expected value is the spec's, for `W = 2048`. -/

namespace Sys2Proof.Tests

open Sys2Proof.Machine

/-- The state after reset with these registers set. -/
def withRegs (rs : List (Reg × Nat)) : State := State.reset.writeRegs rs

/-- The command word accepted in that state, so that the engine's turn comes next. -/
def issued (w : Word) (rs : List (Reg × Nat)) : State := (withRegs rs).accept w

/-- `es` scheduled next. -/
def sched (s : State) (es : List Event) : State := s.setPending es

/-- The outcome is a next state with property `p`. -/
def after (o : Host.Outcome State Fault Refusal) (p : State → Bool) : Bool :=
  match o with
  | .next t => p t
  | .fault _ => false
  | .refused _ => false

/-- The command completes without an error, `r` holds `v`, and Z is `z`. -/
def gives (w : Word) (rs : List (Reg × Nat)) (r : Reg) (v : Nat) (z : Bool) : Bool :=
  after (step (issued w rs)) (fun t => t.reg r == v && t.z == z && !t.err && !t.busy && t.done)

/-- The command completes with the error and every register is as before. -/
def fails (w : Word) (rs : List (Reg × Nat)) (c : CmdError) : Bool :=
  after (step (issued w rs)) (fun t => t.errCode == some c && t.err && !t.busy && t.done && t.regs == (withRegs rs).regs)

/-- `2^W - 1`. -/
def top : Nat := 2 ^ 2048 - 1

/-! ## Well-formedness and decoding -/

/-- R89: an ill-formed MUL and an ill-formed DIVMOD are refused, and well-formed ones are not. -/
theorem test_wellformed_smoke :
    Instr.wellFormed (.mul 2 2 0 1) = false ∧ Instr.wellFormed (.divmod 0 0 0 2) = false ∧
    Instr.wellFormed (.mul 2 5 0 1) = true ∧ Instr.wellFormed (.divmod 0 7 0 2) = true := by decide

/-- Worked examples of R111 to R115, R140, R151 to R153. -/
theorem test_decode_units :
    decode 0x00022A10#32 = .ok (.mul 2 5 0 1) ∧ decode 0x003E0011#32 = .ok (.modmul 0 0 7 3) ∧
    decode 0x00020212#32 = .ok (.mod 2 0 1) ∧ decode 0x00420513#32 = .ok (.modadd 5 0 1 4) ∧
    decode 0x00418314#32 = .ok (.modsub 3 6 0 4) ∧ decode 0x00310020#32 = .ok (.modexp 0 4 0 3) ∧
    decode 0x00044630#32 = .ok (.gcd 6 1 2) ∧ decode 0x00054631#32 = .ok (.modinv 6 5 2) ∧
    decode 0x00020532#32 = .ok (.lcm 5 0 1) := by decide

/-- Worked examples of R171 to R179, and V38. -/
theorem test_decode_alu :
    decode 0x00000000#32 = .ok .nop ∧ decode 0x007FFF00#32 = .ok .nop ∧ decode 0x00008140#32 = .ok (.mov 1 2) ∧
    decode 0x00010741#32 = .ok (.movi 7 1) ∧ decode 0xFFFF0341#32 = .ok (.movi 3 0xFFFF) ∧
    decode 0x000E8442#32 = .ok (.add 4 2 7) ∧ decode 0x000E0043#32 = .ok (.sub 0 0 7) ∧
    decode 0x00043844#32 = .ok (.divmod 0 7 0 2) ∧ decode 0x000F8045#32 = .ok (.cmp 6 7) ∧
    decode 0x00040046#32 = .ok (.smod 0 0 2) ∧ decode 0x00040047#32 = .ok (.sremap 0 0 2) := by decide

/-- One word of each family written out bit by bit from R81 and R82, most significant bit first:
res, rs3, rs2, rs1, rd2, rd, opcode; imm16, res, rd, opcode. -/
theorem test_decode_bits :
    decode 0b000000000_000_001_000_101_010_00010000#32 = .ok (.mul 2 5 0 1) ∧
    decode 0b000000000_011_000_100_000_000_00100000#32 = .ok (.modexp 0 4 0 3) ∧
    decode 0b000000000_000_010_101_000_110_00110001#32 = .ok (.modinv 6 5 2) ∧
    decode 0b000000000_000_111_010_000_100_01000010#32 = .ok (.add 4 2 7) ∧
    decode 0b1000000000000001_00000_011_01000001#32 = .ok (.movi 3 0x8001) := by decide

/-- V65 to V70, V39, V42. -/
theorem test_decode_errors :
    decode 0x00000015#32 = .error .illegalOpcode ∧ decode 0x000000FF#32 = .error .illegalOpcode ∧
    decode 0x80000015#32 = .error .illegalOpcode ∧ decode 0x80002810#32 = .error .badForm ∧
    decode 0x01020012#32 = .error .badForm ∧ decode 0x00800000#32 = .error .badForm ∧
    decode 0x00010B41#32 = .error .badForm ∧ decode 0x80000041#32 = .ok (.movi 0 0x8000) := by decide

/-- R91: the words of the worked examples are what an assembler writes. -/
theorem test_encode :
    encode (.mul 2 5 0 1) = 0x00022A10#32 ∧ encode (.modmul 0 0 7 3) = 0x003E0011#32 ∧
    encode (.divmod 0 7 0 2) = 0x00043844#32 ∧ encode (.movi 7 1) = 0x00010741#32 ∧
    encode (.cmp 6 7) = 0x000F8045#32 := by decide

/-- The opcode table's numbering, and a command run as the first after reset (V41). -/
theorem test_first_command :
    decodeTableWord 32 0xFFFF0341 = some (.movi 3 0xFFFF) ∧
    after (step (State.reset.withFetchWord 32 0xFFFF0341)) (fun t => t.reg 3 == 65535 && t.done) = true := by decide

/-! ## Results -/

/-- V1; V4: the sources are read before the writes. -/
theorem test_mul : (gives 0x00022A10#32 [(0, top), (1, top)] 2 1 false &&
    gives 0x00022A10#32 [(0, top), (1, top)] 5 (2 ^ 2048 - 2) false &&
    gives 0x00020810#32 [(0, 2 ^ 2047), (1, 4)] 0 0 false && gives 0x00020810#32 [(0, 2 ^ 2047), (1, 4)] 1 2 false) = true := by
  decide +kernel
/-- R112. -/
theorem test_modmul : gives 0x003E0011#32 [(0, 13098), (7, 15427), (3, 20449)] 0 6277 false = true := by decide
/-- V6. -/
theorem test_modmul_zero : fails 0x00344011#32 [(0, 9), (1, 5), (2, 6)] .divZero = true := by decide
/-- R113. -/
theorem test_mod : gives 0x00020212#32 [(0, 100), (1, 7)] 2 2 false = true := by decide
/-- V9. -/
theorem test_mod_zero : fails 0x00020212#32 [(0, 5), (2, 77)] .divZero = true := by decide
/-- V11. -/
theorem test_modadd : gives 0x00420513#32 [(0, 3), (1, 5), (4, 7)] 5 1 false = true := by decide
/-- R115. -/
theorem test_modsub : gives 0x00418314#32 [(6, 10), (0, 25), (4, 2 ^ 32)] 3 0xFFFFFFF1 false = true := by decide
/-- V12, V15: an exact sum above `2^W`, and an exact difference below 0. -/
theorem test_modadd_modsub_exact : (gives 0x00420513#32 [(0, top), (1, top), (4, top)] 5 0 true &&
    gives 0x00418314#32 [(0, 1), (4, top)] 3 (2 ^ 2048 - 2) false) = true := by decide +kernel
/-- R140. -/
theorem test_modexp : gives 0x00310020#32 [(4, 144), (0, 5), (3, 20449)] 0 716 false = true := by decide
/-- V19: the largest exponent. -/
theorem test_modexp_top : gives 0x00344020#32 [(1, 7), (2, top), (3, 13)] 0 5 false = true := by decide +kernel
/-- V25. -/
theorem test_gcd : gives 0x00044630#32 [(1, 12), (2, 18)] 6 6 false = true := by decide
/-- V23. -/
theorem test_gcd_zero : gives 0x00044630#32 [(6, 5)] 6 0 true = true := by decide
/-- V31a. -/
theorem test_modinv : gives 0x00054631#32 [(5, 60), (2, 143)] 6 31 false = true := by decide
/-- V29, V30: DIV_ZERO comes before NO_INVERSE. -/
theorem test_modinv_errors : (fails 0x00054631#32 [(6, 9)] .divZero &&
    fails 0x00054631#32 [(5, 11), (2, 143), (6, 9)] .noInverse) = true := by decide
/-- R153; V32, V35. -/
theorem test_lcm : (gives 0x00020532#32 [(0, 10), (1, 12)] 5 60 false && fails 0x00020532#32 [(5, 9)] .divZero &&
    fails 0x00020532#32 [(0, 2 ^ 2047 + 1), (1, 2 ^ 2047 - 1), (5, 9)] .overflow) = true := by decide +kernel
/-- V37: Z and CMP stay. -/
theorem test_nop : after (step (sched { withRegs [(3, 7)] with z := true, cmp := .gt, busy := true } []))
    (fun t => t.z && t.cmp == .gt && t.reg 3 == 7 && !t.err && !t.busy && t.done) = true := by decide
/-- V40. -/
theorem test_mov : gives 0x00008140#32 [(1, 5)] 1 0 true = true := by decide
/-- V41: the upper bits are cleared. -/
theorem test_movi : gives 0xFFFF0341#32 [(3, top)] 3 65535 false = true := by decide
/-- V46, V45. -/
theorem test_sub_bounds : (gives 0x000E0043#32 [(0, 5), (7, 5)] 0 0 true &&
    fails 0x000E0043#32 [(7, 1)] .overflow) = true := by decide
/-- V47. -/
theorem test_divmod : (gives 0x00043844#32 [(0, 17), (2, 5)] 0 3 false &&
    gives 0x00043844#32 [(0, 17), (2, 5)] 7 2 false) = true := by decide
/-- V49: BAD_FORM. -/
theorem test_divmod_form : fails 0x00040044#32 [(0, 17), (2, 5)] .badForm = true := by decide
/-- V44, V43: the last sum that fits and the first that does not; V51, V52: the comparison is unsigned. -/
theorem test_add_cmp_bounds : (gives 0x000E8442#32 [(2, 2 ^ 2048 - 2), (7, 1)] 4 top false &&
    fails 0x000E8442#32 [(2, top), (7, 1), (4, 9)] .overflow &&
    after (step (issued 0x000F8045#32 [(6, 1), (7, 2)])) (fun t => t.cmp == .lt && !t.z) &&
    after (step (issued 0x000F8045#32 [(6, top)])) (fun t => t.cmp == .gt && !t.z)) = true := by decide +kernel
/-- SMOD: V54, V55 (-1 and the most negative value); SREMAP: V58, V61 (the largest positive value, a negative one). -/
theorem test_smod_sremap : (gives 0x00040046#32 [(0, top), (2, 7)] 0 6 false &&
    gives 0x00040046#32 [(0, 2 ^ 2047), (2, 3)] 0 1 false &&
    gives 0x00040047#32 [(0, 2 ^ 31), (2, 2 ^ 32)] 0 (2 ^ 31) false &&
    gives 0x00040047#32 [(0, 72), (2, 143)] 0 (2 ^ 2048 - 71) false) = true := by decide +kernel

/-! ## The register interface -/

/-- V71, V72. -/
theorem test_read_id_param :
    after (step (sched State.reset [.host (.read 0x000 4)])) (fun t => t.reads == [0x4D4D5801#32]) = true ∧
    after (step (sched State.reset [.host (.read 0x014 4)])) (fun t => t.reads == [0x00080040#32]) = true := by decide

/-- R29: ERR, ERRCODE 3, Z, CMP 0b10 and BUSYERR in their places. -/
theorem test_read_status :
    ({ State.reset with err := true, errCode := some .divZero, z := true, cmp := .gt, busyErr := true } : State).statusWord
      = 0x00010532#32 := by decide

/-- R51, R52: the ends of the window and the offsets around it, for `W = 2048`. -/
theorem test_locate_edges :
    locate Params.default 0x1000 = .window 0 0 ∧ locate Params.default 0x10FC = .window 0 63 ∧
    locate Params.default 0x1100 = .window 1 0 ∧ locate Params.default 0x17FC = .window 7 63 ∧
    locate Params.default 0x1800 = .unmapped ∧ locate Params.default 0xFFC = .unmapped ∧
    locate Params.default 0x018 = .unmapped ∧ locate Params.default 0x014 = .param := by decide

/-- R54, R53: a window write replaces its word alone; the first and the last word of the window. -/
theorem test_window : (after (step (sched (withRegs [(2, top)]) [.host (.write 0x1204 4 0#32)]))
      (fun t => t.reg 2 == top - (2 ^ 64 - 2 ^ 32) && t.reg 1 == 0 && t.reg 3 == 0) &&
    after (step (sched State.reset [.host (.write 0x17FC 4 0x80000000#32)])) (fun t => t.reg 7 == 2 ^ 2047) &&
    after (step (sched (withRegs [(7, top)]) [.host (.read 0x17FC 4)])) (fun t => t.reads == [0xFFFFFFFF#32])) = true := by
  decide +kernel

/-! ## Witnesses: for each statement with hypotheses, states and operands that meet all of them together -/

/-- A busy block: MUL is accepted and the engine's turn comes next. -/
def busyMul : State := issued 0x00022A10#32 [(0, 11), (1, 13)]

/-- A busy block: MOV of R2 to R1. -/
def busyMov : State := issued 0x00008140#32 [(2, 9)]

/-- A busy block whose command will end with DIV_ZERO. -/
def busyModZero : State := issued 0x00020212#32 [(0, 5)]

/-- An idle block after a failed command, with every flag set and the interrupt enabled. -/
def idleFlags : State :=
  { withRegs [(2, 9)] with irqEn := true, err := true, errCode := some .divZero, z := true, cmp := .gt, busyErr := true,
                           cmdReg := 5#32, done := true }

/-- The parameters of every witness state are legal. -/
theorem test_default_legal : Params.default.Legal := by decide

/-- A word that differs in an ignored field alone (`rs3` of MUL). -/
theorem test_witness_UnusedFieldsIgnored :
    decode 0x00022A10#32 = .ok (.mul 2 5 0 1) ∧
    0x00722A10#32 &&& usedBits (.mul 2 5 0 1) = 0x00022A10#32 &&& usedBits (.mul 2 5 0 1) := by decide

/-- All five branches of R90: V65, V42, V39, V49, V1. -/
theorem test_witness_DecodingProcedureAtCompletion :
    (EngineNext (issued 0x15#32 []) (issued 0x15#32 []) ∧ (issued 0x15#32 []).busy = true ∧
      (0x15#32).extractLsb' 0 8 ∉ assignedOpcodes) ∧
    (EngineNext (issued 0x00010B41#32 []) (issued 0x00010B41#32 []) ∧
      (0x00010B41#32).extractLsb' 0 8 = 0x41#8 ∧ (0x00010B41#32).extractLsb' 11 5 ≠ 0#5) ∧
    (EngineNext (issued 0x00800000#32 []) (issued 0x00800000#32 []) ∧
      (0x00800000#32).extractLsb' 0 8 ≠ 0x41#8 ∧ (0x00800000#32).extractLsb' 23 9 ≠ 0#9) ∧
    (EngineNext (issued 0x00040044#32 []) (issued 0x00040044#32 []) ∧
      (0x00040044#32).extractLsb' 0 8 = 0x44#8 ∧ (0x00040044#32).extractLsb' 8 3 = (0x00040044#32).extractLsb' 11 3) ∧
    (EngineNext busyMul busyMul ∧ busyMul.busy = true ∧ decode busyMul.cmdReg = .ok (.mul 2 5 0 1)) :=
  ⟨⟨.inl ⟨rfl, rfl⟩, rfl, by decide⟩, ⟨.inl ⟨rfl, rfl⟩, by decide⟩, ⟨.inl ⟨rfl, rfl⟩, by decide⟩,
    ⟨.inl ⟨rfl, rfl⟩, by decide⟩, ⟨.inl ⟨rfl, rfl⟩, rfl, by decide⟩⟩

/-- With the engine's turn at the head of the schedule, and with an empty schedule. -/
theorem test_witness_StepRunsDecodedCommand :
    (EngineNext (sched busyMul [.engine]) busyMul ∧ (sched busyMul [.engine]).busy = true ∧
      decode (sched busyMul [.engine]).cmdReg = .ok (.mul 2 5 0 1)) ∧
    EngineNext busyMul busyMul :=
  ⟨⟨.inr ⟨[], rfl, rfl⟩, rfl, by decide⟩, .inl ⟨rfl, rfl⟩⟩

theorem test_witness_IdleEngineHasNoStep :
    EngineNext State.reset State.reset ∧ State.reset.busy = false ∧
    EngineNext (sched idleFlags [.engine]) idleFlags ∧ idleFlags.busy = false :=
  ⟨.inl ⟨rfl, rfl⟩, rfl, .inr ⟨[], rfl, rfl⟩, rfl⟩

theorem test_witness_ErrorCompletionIsPrecise :
    EngineNext busyModZero busyModZero ∧ busyModZero.busy = true ∧ busyModZero.err = false ∧
    after (step busyModZero) (fun t => t.err && t.errCode == some .divZero) = true :=
  ⟨.inl ⟨rfl, rfl⟩, rfl, rfl, by decide⟩

/-- Two states with one register file and width that differ in every flag, IRQ_EN, CMDREG and the reads; and two that
agree in the flags, for the clauses that ask for it. -/
theorem test_witness_ExecuteDependsOnRegistersAlone :
    let s := busyMov
    let s' := { busyMov with irqEn := true, cmdReg := 0#32, reads := [7#32] }
    let u := { s' with z := true, cmp := .gt, err := true, errCode := some .overflow }
    (s.regs = u.regs ∧ s.params.words = u.params.words ∧ s.z ≠ u.z ∧ s.cmp ≠ u.cmp ∧ s.err ≠ u.err) ∧
    (s.regs = s'.regs ∧ s.params.words = s'.params.words ∧ s.z = s'.z ∧ s.cmp = s'.cmp ∧ s.err = s'.err ∧
      s.errCode = s'.errCode) := by decide

/-- A register changes by a window write, by a completion, by a soft reset. -/
theorem test_witness_OperandRegisterWriters :
    after (step (sched State.reset [.host (.write 0x1200 4 5#32)])) (fun t => t.reg 2 != 0) = true ∧
    after (step busyMov) (fun t => t.reg 1 != busyMov.reg 1) = true ∧
    after (step (sched idleFlags [.host (.write 0x004 4 2#32)])) (fun t => t.reg 2 != idleFlags.reg 2) = true := by
  decide

/-- CMP changes by the CMP command and by a hardware reset. -/
theorem test_witness_CmpFlagWriters :
    after (step (issued 0x000F8045#32 [(6, 1), (7, 2)])) (fun t => t.cmp != .eq) = true ∧
    after (step (sched idleFlags [.hardReset])) (fun t => t.cmp != idleFlags.cmp) = true := by decide

theorem test_witness_ZeroFlagWriters :
    after (step (issued 0x00008140#32 [])) (fun t => t.z != false) = true ∧
    after (step (sched idleFlags [.hardReset])) (fun t => t.z != idleFlags.z) = true := by decide

theorem test_witness_ErrorCodeWriters :
    after (step (sched idleFlags [.host (.write 0x00C 4 0#32)])) (fun t => t.errCode != idleFlags.errCode) = true ∧
    after (step busyModZero) (fun t => t.errCode != busyModZero.errCode) = true ∧
    after (step (sched idleFlags [.hardReset])) (fun t => t.err != idleFlags.err) = true := by decide

theorem test_witness_BusyWriters :
    after (step (sched State.reset [.host (.write 0x00C 4 0x15#32)])) (fun t => t.busy) = true ∧
    after (step busyMul) (fun t => !t.busy) = true ∧
    after (step (sched busyMul [.host (.write 0x004 4 2#32)])) (fun t => !t.busy) = true := by decide

theorem test_witness_DoneWriters :
    after (step busyMul) (fun t => t.done) = true ∧
    after (step (sched idleFlags [.host (.write 0x00C 4 0#32)])) (fun t => !t.done) = true ∧
    after (step (sched idleFlags [.host (.write 0x010 4 1#32)])) (fun t => !t.done) = true ∧
    after (step (sched idleFlags [.hardReset])) (fun t => !t.done) = true := by decide

/-- A CMD write, a window read of the first word and a window write of the last, while busy; a W1C write; a reset. -/
theorem test_witness_BusyErrWriters :
    after (step (sched busyMul [.host (.write 0x00C 4 0#32)])) (fun t => t.busyErr) = true ∧
    after (step (sched busyMul [.host (.read 0x1000 4)])) (fun t => t.busyErr) = true ∧
    after (step (sched busyMul [.host (.write 0x17FC 4 0#32)])) (fun t => t.busyErr) = true ∧
    after (step (sched idleFlags [.host (.write 0x008 4 0x10000#32)])) (fun t => !t.busyErr) = true ∧
    after (step (sched idleFlags [.hardReset])) (fun t => !t.busyErr) = true := by decide

theorem test_witness_CommandRegisterWriters :
    after (step (sched State.reset [.host (.write 0x00C 4 0x15#32)])) (fun t => t.cmdReg == 0x15#32) = true ∧
    after (step (sched idleFlags [.hardReset])) (fun t => t.cmdReg != idleFlags.cmdReg) = true := by decide

theorem test_witness_BuildParametersFixed :
    after (step busyMul) (fun t => t.params == Params.default) = true := by decide

/-- An idle, a busy and a failed state that meet the invariant and step. -/
theorem test_witness_StepKeepsInvariant :
    (busyMul.Inv ∧ after (step busyMul) (fun t => t.done) = true) ∧
    (idleFlags.Inv ∧ after (step idleFlags) (fun t => t.err) = true) ∧
    (busyModZero.Inv ∧ after (step busyModZero) (fun t => t.err) = true) := by decide +kernel

/-- Both reset sources, while a command is in progress. -/
theorem test_witness_ResetRule :
    (busyMul.params.Legal ∧ ResetNext (sched busyMul [.hardReset])) ∧
    ResetNext (sched busyMul [.host (.write 0x004 4 2#32)]) :=
  ⟨⟨test_default_legal, [], .inl rfl⟩, [], .inr ⟨2#32, by decide, rfl⟩⟩

/-- IRQ_EN written 1, written 0; the soft reset with bit 0 set leaves it 0 (R27). -/
theorem test_witness_CtrlWriteRule :
    after (step (sched busyMul [.host (.write 0x004 4 1#32)])) (fun t => t.irqEn && t.busy) = true ∧
    after (step (sched idleFlags [.host (.write 0x004 4 0#32)])) (fun t => !t.irqEn && t.done) = true ∧
    after (step (sched idleFlags [.host (.write 0x004 4 3#32)])) (fun t => !t.irqEn && !t.done) = true := by
  decide

/-- Bit 16 clear and set, also while a command is in progress. -/
theorem test_witness_StatusWriteRule :
    after (step (sched idleFlags [.host (.write 0x008 4 0xFFFEFFFF#32)])) (fun t => t.busyErr && t.err) = true ∧
    after (step (sched { busyMul with busyErr := true } [.host (.write 0x008 4 0x10000#32)]))
      (fun t => !t.busyErr && t.busy) = true := by decide

/-- An illegal word is accepted; BUSYERR, Z and CMP stay (R36). -/
theorem test_witness_CommandAccepted :
    idleFlags.params.Legal ∧ idleFlags.busy = false ∧
    after (step (sched idleFlags [.host (.write 0x00C 4 0xFF#32)]))
      (fun t => t.busy && t.cmdReg == 0xFF#32 && !t.err && t.errCode == none && !t.done && t.busyErr && t.z && t.cmp == .gt)
      = true := by decide

theorem test_witness_CommandDroppedWhileBusy :
    busyMul.params.Legal ∧ busyMul.busy = true ∧
    after (step (sched busyMul [.host (.write 0x00C 4 0xFF#32)])) (fun t => t.busyErr && t.cmdReg == busyMul.cmdReg) = true := by
  decide

/-- Each clause: a read of a set DONE, a write of 0, a completion, an acceptance, a reset. -/
theorem test_witness_IrqStatusRule :
    after (step (sched idleFlags [.host (.read 0x010 4)])) (fun t => t.reads == [1#32] && t.done) = true ∧
    after (step (sched idleFlags [.host (.write 0x010 4 0xFFFFFFFE#32)])) (fun t => t.done) = true ∧
    (EngineNext busyMul busyMul ∧ busyMul.busy = true) ∧
    (HostNext (sched idleFlags [.host (.write 0x00C 4 0#32)]) (.write 0x00C 4 0#32) ∧ idleFlags.busy = false) ∧
    ResetNext (sched idleFlags [.hardReset]) :=
  ⟨by decide, by decide, ⟨.inl ⟨rfl, rfl⟩, rfl⟩, ⟨⟨[], rfl⟩, rfl⟩, [], .inl rfl⟩

/-- The first and the last word of the window. -/
theorem test_witness_WindowReadWhileIdle :
    (0 < idleFlags.params.words ∧ 63 < idleFlags.params.words ∧ idleFlags.busy = false) ∧
    (windowOffset Params.default 0 0 = 0x1000 ∧ windowOffset Params.default 7 63 = 0x17FC) ∧
    after (step (sched (withRegs [(0, 2 ^ 32 + 5)]) [.host (.read 0x1000 4)])) (fun t => t.reads == [5#32]) = true := by
  decide

theorem test_witness_WindowWriteWhileIdle :
    (63 < State.reset.params.words ∧ State.reset.busy = false ∧ windowOffset Params.default 7 63 = 0x17FC) ∧
    after (step (sched State.reset [.host (.write 0x1000 4 5#32)])) (fun t => t.reg 0 == 5) = true := by decide

theorem test_witness_WindowRefusedWhileBusy :
    after (step (sched busyMul [.host (.write 0x1000 4 5#32)])) (fun t => t.busyErr && t.reg 0 == 11) = true ∧
    after (step (sched busyMul [.host (.read 0x1000 4)])) (fun t => t.busyErr && t.reads == [0#32]) = true ∧
    (busyMov.busy = true ∧ after (step busyMov) (fun t => t.reg 1 != busyMov.reg 1) = true) := by decide

/-- A narrow, a wide and a misaligned access; a narrow CMD write and a narrow window read while busy set nothing. -/
theorem test_witness_BadAccessIgnored :
    after (step (sched idleFlags [.host (.write 0x1200 2 7#32)])) (fun t => t.reg 2 == 9) = true ∧
    after (step (sched idleFlags [.host (.write 0x1200 8 7#32)])) (fun t => t.reg 2 == 9) = true ∧
    after (step (sched idleFlags [.host (.read 0x1201 4)])) (fun t => t.reads == [0#32]) = true ∧
    after (step (sched busyMul [.host (.write 0x00C 1 7#32)])) (fun t => !t.busyErr) = true ∧
    after (step (sched busyMul [.host (.read 0x1000 1)])) (fun t => !t.busyErr && t.reads == [0#32]) = true := by
  decide

/-- The ends of both unmapped ranges. -/
theorem test_witness_UnmappedAccessIgnored :
    ∀ off ∈ [0x018, 0xFFC, 0xFFF, 0x1800, 0x1FFC, 0x1FFF],
      off < busyMul.params.aperture ∧ ((0x018 ≤ off ∧ off ≤ 0xFFF) ∨ 0x1000 + busyMul.params.width ≤ off) ∧
      after (step (sched busyMul [.host (.read off 4)])) (fun t => t.reads == [0#32] && !t.busyErr) = true ∧
      after (step (sched busyMul [.host (.write off 4 7#32)])) (fun t => t.regs == busyMul.regs && !t.busyErr) = true := by
  decide

/-- A refused read (the first window word while busy); reads that are not: idle, too narrow, outside the window. -/
theorem test_witness_ReadsHaveNoSideEffect :
    (0x1000 < busyMul.params.aperture ∧ busyMul.busy = true ∧ 0 < busyMul.params.words ∧
      windowOffset busyMul.params 0 0 = 0x1000) ∧
    after (step (sched busyMul [.host (.read 0x1000 4)])) (fun t => t.busyErr) = true ∧
    after (step (sched State.reset [.host (.read 0x1000 4)])) (fun t => !t.busyErr) = true ∧
    after (step (sched busyMul [.host (.read 0x1000 2)])) (fun t => !t.busyErr) = true ∧
    after (step (sched busyMul [.host (.read 0x008 4)])) (fun t => t.reads == [1#32] && !t.busyErr) = true := by decide

/-- Writes of ID and PARAM are ignored; their reads are in test_read_id_param. -/
theorem test_witness_IdentificationRegisters :
    after (step (sched idleFlags [.host (.write 0x000 4 0#32)])) (fun t => t == idleFlags) = true ∧
    after (step (sched idleFlags [.host (.write 0x014 4 0#32)])) (fun t => t == idleFlags) = true := by decide

theorem test_witness_CtrlReadRule :
    idleFlags.params.Legal ∧
    after (step (sched idleFlags [.host (.read 0x004 4)])) (fun t => t.reads == [1#32]) = true := by decide

theorem test_witness_StatusReadRule :
    after (step (sched idleFlags [.host (.read 0x008 4)])) (fun t => t.reads == [0x00010532#32]) = true ∧
    after (step (sched busyMul [.host (.read 0x008 4)])) (fun t => t.reads == [1#32]) = true := by decide

/-- A read while busy, and a failed command's word still there. -/
theorem test_witness_CommandReadBack :
    after (step (sched busyMul [.host (.read 0x00C 4)])) (fun t => t.reads == [0x00022A10#32]) = true ∧
    (EngineNext busyModZero busyModZero ∧ busyModZero.busy = true) ∧
    after (step busyModZero) (fun t => t.cmdReg == 0x00020212#32) = true :=
  ⟨by decide, ⟨.inl ⟨rfl, rfl⟩, rfl⟩, by decide⟩

/-- Byte lane 3 of word 0 is byte 3 of the register. -/
theorem test_witness_WindowIsLittleEndian :
    0 < State.reset.params.words ∧
    after (step (sched (withRegs [(1, 0xA1B2C3D4)]) [.host (.read 0x1100 4)]))
      (fun t => t.reads == [0xA1B2C3D4#32]) = true ∧ 0xA1B2C3D4 / 2 ^ 24 % 2 ^ 8 = 0xA1 := by decide

/-- All the ways `irq` falls. -/
theorem test_witness_InterruptLevel :
    idleFlags.irq = true ∧
    after (step (sched idleFlags [.host (.write 0x010 4 1#32)])) (fun t => !t.irq) = true ∧
    after (step (sched idleFlags [.host (.write 0x004 4 0#32)])) (fun t => !t.irq) = true ∧
    after (step (sched idleFlags [.host (.write 0x00C 4 0#32)])) (fun t => !t.irq) = true ∧
    after (step (sched idleFlags [.hardReset])) (fun t => !t.irq) = true := by decide

/-- The first offset outside the aperture, and the last one inside. -/
theorem test_witness_OutsideApertureStops :
    State.reset.params.aperture ≤ 0x2000 ∧
    (match step (sched State.reset [.host (.read 0x2000 4)]) with
      | .fault (.outsideAperture off) => off == 0x2000
      | .next _ => false
      | .refused _ => false) = true ∧
    after (step (sched State.reset [.host (.read 0x1FFC 4)])) (fun _ => true) = true := by decide

/-- A busy block with a polling host. -/
theorem test_witness_AcceptedCommandEnds :
    let s := sched busyMul [.host (.read 0x008 4), .host (.write 0x00C 4 0#32)]
    s.busy = true ∧ (∀ off size, Event.host (.read off size) ∈ s.pending → off < s.params.aperture) ∧
    (∀ off size d, Event.host (.write off size d) ∈ s.pending → off < s.params.aperture) := by
  refine ⟨rfl, fun off size h => ?_, fun off size d h => ?_⟩ <;>
    simp [sched] at h <;> obtain ⟨rfl, -⟩ := h <;> decide

/-- `-1`, the least and the greatest value of 8 bits, and width 1. -/
theorem test_witness_SignedEncodingInverse :
    signedW 8 255 = -1 ∧ signedW 8 128 = -128 ∧ signedW 8 127 = 127 ∧ signedW 1 1 = -1 ∧
    tcW 8 (-128) = 128 ∧ tcW 8 127 = 127 := by decide

/-! The clauses of the command statements: one state for each, on operands beside those of the results above. -/

theorem test_witness_MulRule_and_DivmodRule :
    (2 : Reg) = 2 ∧ (2 : Reg) ≠ 5 ∧ (withRegs []).reg 1 = 0 ∧ (withRegs [(1, 1)]).reg 1 ≠ 0 := by decide

/-- The two clauses of MODMUL, MODADD, MODSUB, MODEXP (modulus `rs3`) and of MOD, SMOD, SREMAP (modulus `rs2`). -/
theorem test_witness_modulus_clauses :
    (withRegs [(1, 5)]).reg 3 = 0 ∧ (withRegs [(3, 1)]).reg 3 ≠ 0 := by decide

theorem test_witness_ModinvRule :
    (withRegs [(5, 3)]).reg 2 = 0 ∧
    ((withRegs [(2, 2)]).reg 2 ≠ 0 ∧ Nat.gcd ((withRegs [(2, 2)]).reg 5) ((withRegs [(2, 2)]).reg 2) ≠ 1) ∧
    ((withRegs [(2, 1)]).reg 2 ≠ 0 ∧ Nat.gcd ((withRegs [(2, 1)]).reg 5) ((withRegs [(2, 1)]).reg 2) = 1) := by
  decide

/-- Each clause; the second state has the greatest least common multiple that fits, `2^W - 1`. -/
theorem test_witness_LcmRule :
    ((withRegs []).reg 0 = 0 ∧ (withRegs []).reg 1 = 0) ∧
    (let s := withRegs [(0, top), (1, 1)]
     ¬(s.reg 0 = 0 ∧ s.reg 1 = 0) ∧ s.reg 0 * s.reg 1 / Nat.gcd (s.reg 0) (s.reg 1) < 2 ^ s.params.width) ∧
    (let s := withRegs [(0, 2 ^ 2047), (1, 2 ^ 2047 + 2)]
     ¬(s.reg 0 = 0 ∧ s.reg 1 = 0) ∧ 2 ^ s.params.width ≤ s.reg 0 * s.reg 1 / Nat.gcd (s.reg 0) (s.reg 1)) := by
  decide +kernel

theorem test_witness_MoviRule :
    (0xFFFF0741#32).extractLsb' 0 8 = 0x41#8 ∧ (0xFFFF0741#32).extractLsb' 11 5 = 0#5 ∧
    (0x00000841#32).extractLsb' 0 8 = 0x41#8 ∧ (0x00000841#32).extractLsb' 11 5 ≠ 0#5 := by decide

/-- The two clauses meet at `2^W`. -/
theorem test_witness_AddRule :
    (let s := withRegs [(2, top), (7, 1)]; 2 ^ s.params.width ≤ s.reg 2 + s.reg 7) ∧
    (let s := withRegs [(2, top)]; s.reg 2 + s.reg 7 < 2 ^ s.params.width) := by decide +kernel

/-- The two clauses meet at equal operands. -/
theorem test_witness_SubRule :
    (let s := withRegs [(0, 4), (7, 5)]; s.reg 0 < s.reg 7) ∧
    (let s := withRegs [(0, 5), (7, 5)]; s.reg 7 ≤ s.reg 0) := by decide

/-- A legal state in range on both sides of the sign test: `2 * v = b` stays, `2 * v > b` becomes negative. -/
theorem test_witness_SremapRule :
    (let s := withRegs [(0, 71), (2, 142)]
     s.params.Legal ∧ s.RegsInRange ∧ s.reg 2 ≠ 0 ∧ ¬ 2 * (s.reg 0 % s.reg 2) > s.reg 2) ∧
    (let s := withRegs [(0, 72), (2, 143)]
     s.params.Legal ∧ s.RegsInRange ∧ s.reg 2 ≠ 0 ∧ 2 * (s.reg 0 % s.reg 2) > s.reg 2) := by decide +kernel

/-- A format R word with clear and one with set reserved bits, as in every SelectedByFormatR. -/
theorem test_witness_SelectedByFormatR :
    (0x007FFF42#32).extractLsb' 0 8 = 0x42#8 ∧ (0x007FFF42#32).extractLsb' 23 9 = 0#9 ∧
    (0x00800042#32).extractLsb' 0 8 = 0x42#8 ∧ (0x00800042#32).extractLsb' 23 9 ≠ 0#9 := by decide

end Sys2Proof.Tests
end

section
/-! PROOFS. The scope family: the fixed build parameters, the invariant of the block, `signed_W` and `tc_W`, and the
access outside the aperture (spec/00_scope.md). -/

/-! ## What each operation does to the build parameters (R6) -/

namespace Sys2Proof.Machine

@[simp] theorem State.complete_params (s : State) (r : CmdResult) : (s.complete r).params = s.params := by
  cases r <;> simp [State.complete]

@[simp] theorem State.writeRegs_bound (s : State) (ws : List (Reg × Nat)) : (s.writeRegs ws).bound = s.bound := by
  simp [State.bound]

theorem EngineNext.params_eq {s s0 : State} (h : EngineNext s s0) : s0.params = s.params := by
  rw [Laws.EngineNext.fields h]

end Sys2Proof.Machine

namespace Sys2Proof.Proofs

open Sys2Proof.Machine Sys2Proof.Laws

theorem exec_params {i : Instr} {s t : State} (h : exec i s = .next t) : t.params = s.params := by
  obtain ⟨r, hr, -⟩ := exec_shape i s
  obtain rfl := Host.Outcome.next.inj (hr.symm.trans h)
  exact State.complete_params s r

theorem engineTurn_params {s t : State} (h : engineTurn s = .next t) : t.params = s.params := by
  obtain ⟨-, rfl⟩ | ⟨-, c, -, rfl⟩ | ⟨-, i, -, hi⟩ := engineTurn_cases h
  · rfl
  · rfl
  · exact exec_params hi

@[simp] theorem hostRead_params (s : State) (off size : Nat) : (hostRead s off size).params = s.params := by
  obtain ⟨v, ⟨-, e⟩ | ⟨-, e⟩⟩ := hostRead_cases s off size <;> rw [e] <;> rfl

@[simp] theorem hostWrite_params (s : State) (off size : Nat) (d : Word) :
    (hostWrite s off size d).params = s.params := by
  obtain e | ⟨-, -, -, e⟩ | ⟨-, -, e⟩ | ⟨-, -, -, e⟩ | ⟨-, -, -, e⟩ | ⟨-, -, -, e⟩ | ⟨-, -, -, e⟩ |
    ⟨-, -, _, _, -, -, e⟩ := hostWrite_cases s off size d <;> rw [e] <;> rfl

/-- Settles O18: none of the four things a step can do writes the parameters. -/
theorem buildParametersFixed : Obligations.BuildParametersFixed := by
  intro s t h
  obtain ⟨s0, hs0, ht⟩ | ⟨es, -, rfl⟩ | ⟨es, off, size, -, -, rfl⟩ | ⟨es, off, size, d, -, -, rfl⟩ := step_cases h
  · rw [engineTurn_params ht, EngineNext.params_eq hs0]
  · rfl
  · simp
  · simp

/-! ## Registers stay in range (R7) -/

theorem regsInRange_setReg {s : State} (hs : s.RegsInRange) (r : Reg) {v : Nat} (hv : v < s.bound) :
    (s.setReg r v).RegsInRange := by
  intro q
  rw [State.setReg_reg, State.setReg_bound]
  split
  · exact hv
  · exact hs q

theorem regsInRange_writeRegs {s : State} (hs : s.RegsInRange) {ws : List (Reg × Nat)}
    (hws : ∀ w ∈ ws, w.2 < s.bound) : (s.writeRegs ws).RegsInRange := by
  induction ws generalizing s with
  | nil => exact hs
  | cons w ws ih =>
    obtain ⟨hw, htail⟩ := List.forall_mem_cons.mp hws
    exact ih (regsInRange_setReg hs w.1 hw) htail

/-- Every value the result of a command writes is a register value (R7). -/
def ResultInRange (s : State) (r : CmdResult) : Prop := ∀ e, r = .ok e → ∀ w ∈ e.writes, w.2 < s.bound

section Results
variable {s : State}

theorem resultInRange_error (c : CmdError) : ResultInRange s (.error c) := nofun

theorem resultInRange_ok {e : Effect} (h : ∀ w ∈ e.writes, w.2 < s.bound) : ResultInRange s (.ok e) := by
  rintro _ ⟨⟩
  exact h

theorem resultInRange_oneDest (rd : Reg) {v : Nat} (h : v < s.bound) : ResultInRange s (.ok (oneDest rd v)) :=
  resultInRange_ok (by simpa [oneDest] using h)

theorem resultInRange_twoDest (rd rd2 : Reg) {v v2 : Nat} (z : Bool) (h : v < s.bound) (h2 : v2 < s.bound) :
    ResultInRange s (.ok (twoDest rd rd2 v v2 z)) :=
  resultInRange_ok (by simpa [twoDest] using ⟨h, h2⟩)

/-- A command that first checks for an error writes values in range if it does so when the check passes. -/
theorem resultInRange_check {p : Prop} [Decidable p] (c : CmdError) {r : CmdResult}
    (h : ¬ p → ResultInRange s r) : ResultInRange s (if p then .error c else r) := by
  split
  · exact resultInRange_error c
  · exact h ‹_›

/-- A residue is below its modulus, which is a register value (R110). -/
theorem resultInRange_modResult (hs : s.RegsInRange) (rd rm : Reg) {v : Nat} (h : s.reg rm ≠ 0 → v < s.reg rm) :
    ResultInRange s (modResult rd (s.reg rm) v) :=
  resultInRange_check _ fun hm => resultInRange_oneDest rd ((h hm).trans (hs rm))

theorem resultInRange_residue (hs : s.RegsInRange) (rd rm : Reg) (n : Nat) :
    ResultInRange s (modResult rd (s.reg rm) (n % s.reg rm)) :=
  resultInRange_modResult hs rd rm fun hm => Nat.mod_lt n (Nat.pos_of_ne_zero hm)

end Results

/-- A 16-bit immediate fits in every legal width (R6, R84). -/
theorem immOperand_lt_bound {s : State} (hp : s.params.Legal) (imm16 : BitVec 16) : immOperand imm16 < s.bound :=
  have hw : 16 ≤ s.params.width := le_trans (by norm_num) hp.1
  lt_of_lt_of_le imm16.isLt (Nat.pow_le_pow_right (by norm_num) hw)

theorem gcd_lt {a b n : Nat} (ha : a < n) (hb : b < n) : Nat.gcd a b < n := by
  rcases Nat.eq_zero_or_pos a with rfl | hpos
  · rwa [Nat.gcd_zero_left]
  · exact lt_of_le_of_lt (Nat.gcd_le_left b hpos) ha

/-- Every command answers a completion that writes register values only: each unit's result is bounded by a source, by
its modulus, or by its OVERFLOW check (R7, R170). -/
theorem exec_resultInRange (i : Instr) {s : State} (hp : s.params.Legal) (hs : s.RegsInRange) :
    ∃ r : CmdResult, exec i s = .next (s.complete r) ∧ ResultInRange s r := by
  cases i with
  | nop => exact ⟨_, rfl, resultInRange_ok nofun⟩
  | mul rd rd2 rs1 rs2 =>
    refine ⟨_, rfl, resultInRange_check _ fun _ => resultInRange_twoDest rd rd2 _ ?_ ?_⟩
    · exact Nat.mod_lt _ (Nat.two_pow_pos _)
    · exact Nat.div_lt_of_lt_mul (Nat.mul_lt_mul'' (hs rs1) (hs rs2))
  | modmul rd _ _ rs3 => exact ⟨_, rfl, resultInRange_residue hs rd rs3 _⟩
  | mod rd _ rs2 => exact ⟨_, rfl, resultInRange_residue hs rd rs2 _⟩
  | modadd rd _ _ rs3 => exact ⟨_, rfl, resultInRange_residue hs rd rs3 _⟩
  | modsub rd _ _ rs3 => exact ⟨_, rfl, resultInRange_modResult hs rd rs3 fun hm => floorMod_lt _ hm⟩
  | modexp rd rs1 rs2 rs3 =>
    refine ⟨_, rfl, ?_⟩
    rw [powMod_eq]
    exact resultInRange_residue hs rd rs3 _
  | gcd rd rs1 rs2 => exact ⟨_, rfl, resultInRange_oneDest rd (gcd_lt (hs rs1) (hs rs2))⟩
  | modinv rd rs1 rs2 =>
    refine ⟨_, rfl, resultInRange_check _ fun hm => resultInRange_check _ fun hg => resultInRange_oneDest rd ?_⟩
    exact (modInverse_spec hm (not_not.mp hg)).1.trans (hs rs2)
  | lcm rd rs1 rs2 =>
    exact ⟨_, rfl, resultInRange_check _ fun _ => resultInRange_check _ fun hl =>
      resultInRange_oneDest rd (not_le.mp hl)⟩
  | mov rd rs1 => exact ⟨_, rfl, resultInRange_oneDest rd (hs rs1)⟩
  | movi rd imm16 => exact ⟨_, rfl, resultInRange_oneDest rd (immOperand_lt_bound hp imm16)⟩
  | add rd rs1 rs2 => exact ⟨_, rfl, resultInRange_check _ fun hl => resultInRange_oneDest rd (not_le.mp hl)⟩
  | sub rd rs1 rs2 =>
    exact ⟨_, rfl, resultInRange_check _ fun _ =>
      resultInRange_oneDest rd (lt_of_le_of_lt (Nat.sub_le _ _) (hs rs1))⟩
  | divmod rd rd2 rs1 rs2 =>
    refine ⟨_, rfl, resultInRange_check _ fun _ => resultInRange_check _ fun _ =>
      resultInRange_twoDest rd rd2 _ ?_ ?_⟩
    · exact lt_of_le_of_lt (Nat.div_le_self _ _) (hs rs1)
    · exact lt_of_le_of_lt (Nat.mod_le _ _) (hs rs1)
  | cmp => exact ⟨_, rfl, resultInRange_ok nofun⟩
  | smod rd _ rs2 => exact ⟨_, rfl, resultInRange_modResult hs rd rs2 fun hm => floorMod_lt _ hm⟩
  | sremap rd rs1 rs2 =>
    exact ⟨_, rfl, resultInRange_check _ fun _ => resultInRange_ok (by simpa [State.bound] using tcW_lt s.params.width _)⟩

/-! ## What keeps the invariant, one lemma per operation on the state -/

section Invariant
variable {s : State}

/-! The schedule, the record of reads, IRQ_EN and BUSYERR are no part of the invariant. -/

@[simp] theorem inv_setPending (es : List Event) : (s.setPending es).Inv ↔ s.Inv := Iff.rfl
@[simp] theorem inv_pushRead (v : Word) : (s.pushRead v).Inv ↔ s.Inv := Iff.rfl
@[simp] theorem inv_setIrqEn (b : Bool) : (s.setIrqEn b).Inv ↔ s.Inv := Iff.rfl
@[simp] theorem inv_setBusyErr (b : Bool) : (s.setBusyErr b).Inv ↔ s.Inv := Iff.rfl

theorem inv_clearDone (h : s.Inv) : s.clearDone.Inv := by
  obtain ⟨hp, hs, he, hb⟩ := h
  refine ⟨hp, hs, he, fun busy => ?_⟩
  obtain ⟨herr, hcode, -⟩ := hb busy
  exact ⟨herr, hcode, rfl⟩

/-- Acceptance clears ERR, ERRCODE and DONE, so the command starts coherent (R36). -/
theorem inv_accept (w : Word) (h : s.Inv) : (s.accept w).Inv := by
  obtain ⟨hp, hs, -, -⟩ := h
  exact ⟨hp, hs, by simp [State.ErrCoherent], fun _ => ⟨rfl, rfl, rfl⟩⟩

theorem inv_setReg (r : Reg) {v : Nat} (hv : v < s.bound) (h : s.Inv) : (s.setReg r v).Inv := by
  obtain ⟨hp, hs, he, hb⟩ := h
  exact ⟨hp, regsInRange_setReg hs r hv, he, hb⟩

/-- A reset gives the invariant from every state whose parameters are legal (R43, R241). -/
theorem inv_resetBlock (hp : s.params.Legal) : s.resetBlock.Inv :=
  ⟨hp, fun r => by rw [State.resetBlock_reg]; exact Nat.two_pow_pos _, by simp [State.ErrCoherent], nofun⟩

theorem inv_raiseError (c : CmdError) (h : s.Inv) : (s.raiseError c).Inv := by
  obtain ⟨hp, hs, -, -⟩ := h
  exact ⟨hp, hs, by simp [State.ErrCoherent], nofun⟩

theorem inv_finish {e : Effect} (he : ∀ w ∈ e.writes, w.2 < s.bound) (h : s.Inv) : (s.finish e).Inv := by
  obtain ⟨hp, hs, herr, -⟩ := h
  refine ⟨by simpa using hp, ?_, by simpa [State.ErrCoherent] using herr, nofun⟩
  exact fun q => by simpa using regsInRange_writeRegs hs he q

theorem inv_complete {r : CmdResult} (hr : ResultInRange s r) (h : s.Inv) : (s.complete r).Inv := by
  cases r with
  | ok e => exact inv_finish (hr e rfl) h
  | error c => exact inv_raiseError c h

end Invariant

theorem exec_inv {i : Instr} {s t : State} (h : s.Inv) (hi : exec i s = .next t) : t.Inv := by
  obtain ⟨hp, hregs, -⟩ := id h
  obtain ⟨r, hr, hrange⟩ := exec_resultInRange i hp hregs
  obtain rfl := Host.Outcome.next.inj (hr.symm.trans hi)
  exact inv_complete hrange h

theorem engineTurn_inv {s t : State} (h : s.Inv) (ht : engineTurn s = .next t) : t.Inv := by
  obtain ⟨-, rfl⟩ | ⟨-, c, -, rfl⟩ | ⟨-, i, -, hi⟩ := engineTurn_cases ht
  · exact h
  · exact inv_raiseError c h
  · exact exec_inv h hi

theorem hostRead_inv {s : State} (off size : Nat) (h : s.Inv) : (hostRead s off size).Inv := by
  obtain ⟨v, ⟨-, e⟩ | ⟨-, e⟩⟩ := hostRead_cases s off size <;> simpa [e] using h

theorem hostWrite_inv {s : State} (off size : Nat) (d : Word) (h : s.Inv) : (hostWrite s off size d).Inv := by
  obtain ⟨hp, hregs, -⟩ := id h
  obtain e | ⟨-, -, -, e⟩ | ⟨-, -, e⟩ | ⟨-, -, -, e⟩ | ⟨-, -, -, e⟩ | ⟨-, -, -, e⟩ | ⟨-, -, -, e⟩ |
    ⟨-, -, r, k, hk, -, e⟩ := hostWrite_cases s off size d <;> rw [e]
  · exact h
  · exact inv_resetBlock hp
  · exact (inv_setIrqEn _).mpr h
  · exact (inv_setBusyErr _).mpr h
  · exact inv_accept d h
  · exact (inv_setBusyErr _).mpr h
  · exact inv_clearDone h
  · exact inv_setReg r (setWindowWord_lt d hk (hregs r)) h

/-- Settles O19, by the four things a step can do: a command's results are in range, a window write stays inside its
register, and acceptance, completion and reset set BUSY, ERR, ERRCODE and DONE together. -/
theorem stepKeepsInvariant : Obligations.StepKeepsInvariant := by
  intro s t hs h
  obtain ⟨s0, hs0, ht⟩ | ⟨es, -, rfl⟩ | ⟨es, off, size, -, -, rfl⟩ | ⟨es, off, size, d, -, -, rfl⟩ := step_cases h
  · have h0 : s0.Inv := by rw [EngineNext.fields hs0]; exact hs
    exact engineTurn_inv h0 ht
  · exact inv_resetBlock hs.1
  · exact hostRead_inv off size hs
  · exact hostWrite_inv off size d hs

/-- Settles O20: the state after reset is a reset of itself, and the default parameters are legal. -/
theorem resetMeetsInvariant : Obligations.ResetMeetsInvariant :=
  have hp : State.reset.params.Legal := by decide
  inv_resetBlock hp

/-! ## `signed_W` and `tc_W` (R11) -/

/-- As an integer, `tc_W` of any integer is its residue modulo `2^W`. -/
theorem tcW_cast (w : Nat) (x : Int) : (tcW w x : Int) = x % 2 ^ w :=
  Int.toNat_of_nonneg (Int.emod_nonneg x (by positivity))

/-- `signed_W` changes a value by a multiple of `2^W`. -/
theorem signedW_emod (w v : Nat) : signedW w v % 2 ^ w = (v : Int) % 2 ^ w := by
  unfold signedW
  split
  · exact Int.sub_emod_right _ _
  · rfl

theorem tcW_signedW {w v : Nat} (hv : v < 2 ^ w) : tcW w (signedW w v) = v := by
  zify
  rw [tcW_cast, signedW_emod]
  exact Int.emod_eq_of_lt (by omega) (by exact_mod_cast hv)

theorem signedW_range {w v : Nat} (hw : 0 < w) (hv : v < 2 ^ w) :
    -2 ^ (w - 1) ≤ signedW w v ∧ signedW w v < 2 ^ (w - 1) := by
  have half : 2 ^ w = 2 * 2 ^ (w - 1) := (mul_pow_sub_one hw.ne' 2).symm
  have pos : 0 < 2 ^ (w - 1) := Nat.two_pow_pos _
  rw [signedW_eq hw hv]
  zify at *
  split <;> constructor <;> omega

/-- Settles O42: the definition, the range of `signed_W`, and `tc_W` as the residue that undoes it. -/
theorem signedEncodingInverse : Obligations.SignedEncodingInverse := by
  intro w hw
  refine ⟨fun v hv => ?_, fun x _ _ => tcW_cast w x⟩
  obtain ⟨lo, hi⟩ := signedW_range hw hv
  exact ⟨rfl, lo, hi, tcW_signedW hv⟩

/-! ## An access outside the aperture (R6, R51; log entry 2) -/

theorem hostAccess_read_outside {s : State} {off : Nat} (size : Nat) (h : s.params.aperture ≤ off) :
    hostAccess s (.read off size) = .fault (.outsideAperture off) :=
  if_neg (Nat.not_lt.mpr h)

theorem hostAccess_write_outside {s : State} {off : Nat} (size : Nat) (d : Word) (h : s.params.aperture ≤ off) :
    hostAccess s (.write off size d) = .fault (.outsideAperture off) :=
  if_neg (Nat.not_lt.mpr h)

/-- A host access is what the step does when it comes next. -/
theorem step_of_host {s : State} {a : Access} {es : List Event} (h : s.pending = .host a :: es) :
    step s = hostAccess (s.setPending es) a := by
  simp [step, nextEvent, h, runEvent]

/-- Settles O40: the step is the access, and the access answers the fault in both directions. -/
theorem outsideApertureStops : Obligations.OutsideApertureStops := by
  intro s off size v es hoff hnext
  obtain h | h := hnext <;> rw [step_of_host h]
  · exact hostAccess_read_outside size hoff
  · exact hostAccess_write_outside size v hoff

end Sys2Proof.Proofs
end

section
/-! PROOFS. The state family: who may write each piece of the block's state, the control and status registers, reset and
completion (spec/10_state.md). -/

namespace Sys2Proof.Machine

theorem EngineNext.busy_eq {s s0 : State} (h : EngineNext s s0) : s0.busy = s.busy := by
  rw [Laws.EngineNext.fields h]

theorem EngineNext.cmdReg_eq {s s0 : State} (h : EngineNext s s0) : s0.cmdReg = s.cmdReg := by
  rw [Laws.EngineNext.fields h]

theorem EngineNext.eq_setPending {s s0 : State} (h : EngineNext s s0) : s0 = s.setPending s0.pending :=
  Laws.EngineNext.fields h

end Sys2Proof.Machine

namespace Sys2Proof.Proofs

open Sys2Proof.Machine Sys2Proof.Laws

/-! ## Everything one step can do, as one named operation on the state with the event taken off the schedule -/

/-- `StepEffect s t`: `t` is one operation on `s`, with what is left of the schedule in `es`, under the conditions that
allow the operation. Every step has one of these effects (`stepEffect_of_step`). -/
inductive StepEffect (s : State) : State → Prop where
  /-- An idle engine's turn (R235), or a write that is ignored (R24, R25, R57, R58). -/
  | ignored (es : List Event) : StepEffect s (s.setPending es)
  /-- A completion with an error, the decoder's or the command's (R213). -/
  | fail (es : List Event) (c : CmdError) (turn : ∃ s0, EngineNext s s0) (busy : s.busy = true) :
      StepEffect s ((s.setPending es).raiseError c)
  /-- A successful completion (R212). -/
  | finish (es : List Event) (i : Instr) (e : Effect) (turn : ∃ s0, EngineNext s s0) (busy : s.busy = true)
      (decoded : decode s.cmdReg = .ok i) (shape : EffectShape i (.ok e)) : StepEffect s ((s.setPending es).finish e)
  /-- Either reset (R241). -/
  | reset (es : List Event) (next : ResetNext s) : StepEffect s (s.setPending es).resetBlock
  /-- A read without a side effect (R60). -/
  | read (es : List Event) (v : Word) : StepEffect s ((s.setPending es).pushRead v)
  /-- A window read while a command is in progress (R55). -/
  | readRefused (es : List Event) (v : Word) (r : Reg) (k : Nat) (busy : s.busy = true) (hk : k < s.params.words)
      (next : HostNext s (.read (windowOffset s.params r k) 4)) :
      StepEffect s (((s.setPending es).setBusyErr true).pushRead v)
  /-- A CTRL write without a reset (R27). -/
  | ctrlWrite (es : List Event) (d : Word) (next : HostNext s (.write 0x004 4 d)) :
      StepEffect s ((s.setPending es).setIrqEn (d.getLsbD 0))
  /-- A STATUS write that clears BUSYERR (R30). -/
  | busyErrClear (es : List Event) (d : Word) (bit : d.getLsbD 16 = true) (next : HostNext s (.write 0x008 4 d)) :
      StepEffect s ((s.setPending es).setBusyErr false)
  /-- An acceptance (R36). -/
  | accept (es : List Event) (d : Word) (idle : s.busy = false) (next : HostNext s (.write 0x00C 4 d)) :
      StepEffect s ((s.setPending es).accept d)
  /-- A CMD write or a window write while a command is in progress (R37, R55). -/
  | writeRefused (es : List Event) (off : Nat) (d : Word) (busy : s.busy = true) (next : HostNext s (.write off 4 d))
      (target : off = 0x00C ∨ ∃ r k, k < s.params.words ∧ off = windowOffset s.params r k) :
      StepEffect s ((s.setPending es).setBusyErr true)
  /-- An IRQ_STATUS write that clears DONE (R40). -/
  | doneClear (es : List Event) (d : Word) (bit : d.getLsbD 0 = true) (next : HostNext s (.write 0x010 4 d)) :
      StepEffect s (s.setPending es).clearDone
  /-- A window write while idle (R54). -/
  | windowWrite (es : List Event) (r : Reg) (k : Nat) (d : Word) (idle : s.busy = false) (hk : k < s.params.words)
      (next : HostNext s (.write (windowOffset s.params r k) 4 d)) :
      StepEffect s ((s.setPending es).setReg r (setWindowWord (s.reg r) k d))

theorem stepEffect_of_engineTurn {s s0 t : State} (hs0 : EngineNext s s0) (h : engineTurn s0 = .next t) :
    StepEffect s t := by
  have e0 := hs0.eq_setPending
  have hb := hs0.busy_eq
  have hc := hs0.cmdReg_eq
  obtain ⟨-, rfl⟩ | ⟨busy, c, -, rfl⟩ | ⟨busy, i, hi, ht⟩ := engineTurn_cases h
  · rw [e0]; exact .ignored _
  · rw [e0]; exact .fail _ c ⟨s0, hs0⟩ (hb ▸ busy)
  · obtain ⟨r, hr, shape⟩ := exec_shape i s0
    obtain rfl := Host.Outcome.next.inj (hr.symm.trans ht)
    rw [e0]
    cases r with
    | ok e => exact .finish _ i e ⟨s0, hs0⟩ (hb ▸ busy) (hc ▸ hi) shape
    | error c => exact .fail _ c ⟨s0, hs0⟩ (hb ▸ busy)

theorem stepEffect_of_hostRead {s : State} {es : List Event} {off size : Nat}
    (h : s.pending = .host (.read off size) :: es) : StepEffect s (hostRead (s.setPending es) off size) := by
  obtain ⟨v, ⟨-, e⟩ | ⟨⟨busy, rfl, r, k, hk, rfl⟩, e⟩⟩ := hostRead_cases (s.setPending es) off size <;> rw [e]
  · exact .read es v
  · exact .readRefused es v r k busy hk ⟨es, h⟩

theorem stepEffect_of_hostWrite {s : State} {es : List Event} {off size : Nat} {d : Word}
    (h : s.pending = .host (.write off size d) :: es) : StepEffect s (hostWrite (s.setPending es) off size d) := by
  obtain e | ⟨rfl, rfl, hd, e⟩ | ⟨rfl, rfl, e⟩ | ⟨rfl, rfl, hd, e⟩ | ⟨rfl, rfl, idle, e⟩ | ⟨busy, rfl, target, e⟩ |
    ⟨rfl, rfl, hd, e⟩ | ⟨idle, rfl, r, k, hk, rfl, e⟩ := hostWrite_cases (s.setPending es) off size d <;> rw [e]
  · exact .ignored es
  · exact .reset es ⟨es, .inr ⟨d, hd, h⟩⟩
  · exact .ctrlWrite es d ⟨es, h⟩
  · exact .busyErrClear es d hd ⟨es, h⟩
  · exact .accept es d idle ⟨es, h⟩
  · exact .writeRefused es off d busy ⟨es, h⟩ target
  · exact .doneClear es d hd ⟨es, h⟩
  · exact .windowWrite es r k d idle hk ⟨es, h⟩

theorem stepEffect_of_step {s t : State} (h : step s = .next t) : StepEffect s t := by
  obtain ⟨s0, hs0, ht⟩ | ⟨es, hp, rfl⟩ | ⟨es, off, size, hp, -, rfl⟩ | ⟨es, off, size, d, hp, -, rfl⟩ := step_cases h
  · exact stepEffect_of_engineTurn hs0 ht
  · exact .reset es ⟨es, .inl hp⟩
  · exact stepEffect_of_hostRead hp
  · exact stepEffect_of_hostWrite hp

/-! ## Who may write each field -/

/-- A successful completion changes no register that its command does not name (R21). -/
theorem mem_destsOf_of_finish_reg_ne {i : Instr} {e : Effect} (shape : EffectShape i (.ok e)) {s : State} {r : Reg}
    (h : (s.finish e).reg r ≠ s.reg r) : r ∈ destsOf i := by
  obtain ⟨hw, -⟩ := shape e rfl
  by_contra hr
  exact h (State.writeRegs_reg_other s e.writes r fun w hmem hwr => hr (hwr ▸ hw w hmem))

/-- Settles O10: only a completion, a window write while idle and a reset are writes of registers. -/
theorem operandRegisterWriters : Obligations.OperandRegisterWriters := by
  intro s t r h hne
  cases stepEffect_of_step h with
  | finish es i e turn busy decoded shape =>
    exact .inr (.inl ⟨busy, turn, by simp, by simp, i, decoded, mem_destsOf_of_finish_reg_ne shape hne⟩)
  | windowWrite es q k d idle hk next =>
    have hq : r = q := by
      by_contra hq
      exact hne (State.setReg_reg_other _ _ hq)
    exact .inl ⟨idle, k, d, hk, hq ▸ next⟩
  | reset es next => exact .inr (.inr next)
  | _ => exact absurd rfl hne

/-- Settles O11: of the completions only that of the CMP command has a CMP to write. -/
theorem cmpFlagWriters : Obligations.CmpFlagWriters := by
  intro s t h hne
  cases stepEffect_of_step h with
  | finish es i e turn busy decoded shape =>
    obtain ⟨-, ⟨rs1, rs2, rfl⟩ | hcmp, -⟩ := shape e rfl
    · exact .inl ⟨busy, turn, rs1, rs2, decoded⟩
    · simp [hcmp] at hne
  | reset es next => exact .inr next
  | _ => exact absurd rfl hne

/-- Settles O12: a successful completion writes Z unless it is NOP's, and an unsuccessful one does not. -/
theorem zeroFlagWriters : Obligations.ZeroFlagWriters := by
  intro s t h hne
  cases stepEffect_of_step h with
  | finish es i e turn busy decoded shape =>
    obtain ⟨-, -, hnop⟩ := shape e rfl
    have hi : i ≠ .nop := fun hi => by simp [hnop hi] at hne
    exact .inl ⟨busy, turn, by simp, by simp, i, decoded, hi⟩
  | reset es next => exact .inr next
  | _ => exact absurd rfl hne

/-- Settles O13: acceptance clears both, an unsuccessful completion sets both, a successful one leaves both. -/
theorem errorCodeWriters : Obligations.ErrorCodeWriters := by
  intro s t h hne
  cases stepEffect_of_step h with
  | accept es d idle next => exact .inl ⟨idle, ⟨d, next⟩, rfl, rfl⟩
  | fail es c turn busy => exact .inr (.inl ⟨busy, turn, rfl, by simp⟩)
  | reset es next => exact .inr (.inr next)
  | _ => simp at hne

/-- Settles O14: acceptance is the one operation that sets BUSY; the completions and reset are those that clear it. -/
theorem busyWriters : Obligations.BusyWriters := by
  intro s t h
  cases stepEffect_of_step h with
  | accept es d idle next => exact ⟨fun _ _ => ⟨d, next⟩, nofun⟩
  | fail es c turn busy => exact ⟨nofun, fun _ _ => .inl turn⟩
  | finish es i e turn busy => exact ⟨nofun, fun _ _ => .inl turn⟩
  | reset es next => exact ⟨nofun, fun _ _ => .inr next⟩
  | _ => simp_all

/-- Settles O15: the completions are the operations that set DONE; acceptance, a write of 1 and reset clear it. -/
theorem doneWriters : Obligations.DoneWriters := by
  intro s t h
  cases stepEffect_of_step h with
  | fail es c turn busy => exact ⟨fun _ _ => ⟨busy, turn⟩, nofun⟩
  | finish es i e turn busy => exact ⟨fun _ _ => ⟨busy, turn⟩, nofun⟩
  | accept es d idle next => exact ⟨nofun, fun _ _ => .inl ⟨idle, d, next⟩⟩
  | doneClear es d bit next => exact ⟨nofun, fun _ _ => .inr (.inl ⟨d, bit, next⟩)⟩
  | reset es next => exact ⟨nofun, fun _ _ => .inr (.inr next)⟩
  | _ => simp_all

/-- Settles O16: a refused read and a refused write are the operations that set BUSYERR; a write of 1 and reset clear
it. -/
theorem busyErrWriters : Obligations.BusyErrWriters := by
  intro s t h
  cases stepEffect_of_step h with
  | readRefused es v r k busy hk next => exact ⟨fun _ _ => ⟨busy, .inr ⟨r, k, hk, .inl next⟩⟩, nofun⟩
  | writeRefused es off d busy next target =>
    refine ⟨fun _ _ => ⟨busy, ?_⟩, nofun⟩
    obtain rfl | ⟨r, k, hk, rfl⟩ := target
    · exact .inl ⟨d, next⟩
    · exact .inr ⟨r, k, hk, .inr ⟨d, next⟩⟩
  | busyErrClear es d bit next => exact ⟨nofun, fun _ _ => .inl ⟨d, bit, next⟩⟩
  | reset es next => exact ⟨nofun, fun _ _ => .inr next⟩
  | _ => simp_all

/-- Settles O17: acceptance and reset are the operations that write CMDREG. -/
theorem commandRegisterWriters : Obligations.CommandRegisterWriters := by
  intro s t h hne
  cases stepEffect_of_step h with
  | accept es d idle next => exact .inl ⟨idle, next⟩
  | reset es next => exact .inr next
  | _ => simp at hne

theorem irq_eq_true_iff (s : State) : s.irq = true ↔ s.irqEn = true ∧ s.done = true :=
  Bool.and_eq_true_iff

/-- Settles O39: the level falls with IRQ_EN, which a CTRL write or reset clears, or with DONE, which acceptance, a write
of 1 or reset clears; a completion sets DONE, so it does not lower the level. -/
theorem interruptLevel : Obligations.InterruptLevel := by
  refine ⟨irq_eq_true_iff, fun s t h hs ht => ?_⟩
  obtain ⟨hen, hdone⟩ := (irq_eq_true_iff s).mp hs
  cases stepEffect_of_step h with
  | doneClear es d bit next => exact .inl ⟨d, bit, next⟩
  | ctrlWrite es d next =>
    have bit : d.getLsbD 0 = false := by simpa [State.irq, hdone] using ht
    exact .inr (.inl ⟨d, bit, next⟩)
  | accept es d idle next => exact .inr (.inr (.inl ⟨idle, d, next⟩))
  | reset es next => exact .inr (.inr (.inr next))
  | _ => simp [State.irq, hen, hdone] at ht

/-! ## Completion and reset -/

/-- Settles O5: the engine's turn with a command in progress is the decoded command's execution. -/
theorem stepRunsDecodedCommand : Obligations.StepRunsDecodedCommand := by
  intro s s0 i hs0 busy hi
  rw [step_of_engineNext hs0, engineTurn, hs0.busy_eq, if_pos busy, hs0.cmdReg_eq, hi]

/-- Settles O6: the engine's turn with no command in progress is the identity. -/
theorem idleEngineHasNoStep : Obligations.IdleEngineHasNoStep := by
  intro s s0 hs0 idle
  simp [step_of_engineNext hs0, engineTurn, hs0.busy_eq, idle]

/-- With a command in progress the engine's turn is a completion, with success or with an error (R212). -/
theorem engineTurn_completes {s : State} (busy : s.busy = true) :
    ∃ t, engineTurn s = .next t ∧ CompletionFrame s t := by
  rw [engineTurn, if_pos busy]
  cases decode s.cmdReg with
  | error c => exact ⟨_, rfl, completionFrame_complete s (.error c)⟩
  | ok i =>
    obtain ⟨r, hr, -⟩ := exec_shape i s
    exact ⟨_, hr, completionFrame_complete s r⟩

theorem step_completes {s s0 : State} (hs0 : EngineNext s s0) (busy : s.busy = true) :
    ∃ t, step s = .next t ∧ CompletionFrame s0 t := by
  rw [step_of_engineNext hs0]
  exact engineTurn_completes (hs0.busy_eq.trans busy)

/-- A reset gives every piece of the block's state the value of R43. -/
theorem hasResetValues_resetBlock (s : State) : HasResetValues s.resetBlock := by
  simp [HasResetValues, State.irq, CmpFlag.bits]

/-- Settles O21: the state after reset is a reset of itself. -/
theorem resetStateValues : Obligations.ResetStateValues :=
  ⟨hasResetValues_resetBlock State.reset, by decide, by decide, by decide⟩

/-! ## The control and status registers -/

/-- Every control and status register is inside a legal aperture (R6, R51). -/
theorem lt_aperture {p : Params} (hp : p.Legal) {off : Nat} (hoff : off < 0x1000) : off < p.aperture := by
  obtain ⟨-, -, ha⟩ := hp
  omega

section Registers
variable {s : State} {es : List Event} {off : Nat} (hp : s.params.Legal)
include hp

theorem step_of_registerRead (hoff : off < 0x1000) (h : s.pending = .host (.read off 4) :: es) :
    step s = .next (hostRead (s.setPending es) off 4) :=
  step_of_read h (lt_aperture hp hoff)

theorem step_of_registerWrite {v : Word} (hoff : off < 0x1000) (h : s.pending = .host (.write off 4 v) :: es) :
    step s = .next (hostWrite (s.setPending es) off 4 v) :=
  step_of_write h (lt_aperture hp hoff)

theorem step_of_softReset {v : Word} (hv : v.getLsbD 1 = true) (h : s.pending = .host (.write 0x004 4 v) :: es) :
    step s = .next (s.setPending es).resetBlock := by
  rw [step_of_registerWrite hp (by norm_num) h, hostWrite_ctrl, if_pos hv]

/-- Either reset is one step, with one effect (R240, R241). -/
theorem step_of_resetNext (h : ResetNext s) : step s = .next (s.setPending s.pending.tail).resetBlock := by
  obtain ⟨es, h | ⟨v, hv, h⟩⟩ := h
  · simp [step, nextEvent, h, runEvent]
  · rw [step_of_softReset hp hv h, h, List.tail_cons]

end Registers

/-- Settles O23: bit 1 chooses between the soft reset and the write of IRQ_EN. -/
theorem ctrlWriteRule : Obligations.CtrlWriteRule := by
  intro s v es hp h
  refine ⟨fun hv => ?_, fun hv => ⟨_, step_of_softReset hp hv h, hasResetValues_resetBlock _, rfl, rfl, rfl⟩⟩
  rw [step_of_registerWrite hp (by norm_num) h, hostWrite_ctrl, if_neg (Bool.eq_false_iff.mp hv)]
  rfl

/-- Settles O24, by the two values of bit 16. -/
theorem statusWriteRule : Obligations.StatusWriteRule := by
  intro s v es hp h
  rw [step_of_registerWrite hp (by norm_num) h, hostWrite_status]
  cases v.getLsbD 16 <;> rfl

/-- Settles O25: the write is the acceptance, whose every field the statement names. -/
theorem commandAccepted : Obligations.CommandAccepted := by
  intro s v es hp h idle
  rw [step_of_registerWrite hp (by norm_num) h, hostWrite_cmd, State.setPending_busy, if_neg (Bool.eq_false_iff.mp idle)]
  rfl

/-- Settles O26: the write sets BUSYERR and is otherwise dropped. -/
theorem commandDroppedWhileBusy : Obligations.CommandDroppedWhileBusy := by
  intro s v es hp h busy
  rw [step_of_registerWrite hp (by norm_num) h, hostWrite_cmd, State.setPending_busy, if_pos busy]
  rfl

/-- The word an IRQ_STATUS read returns is DONE as a number (R40). -/
theorem irqStatusWord_eq (s : State) : s.irqStatusWord = if s.done then 1#32 else 0#32 := by
  rw [State.irqStatusWord]
  cases s.done <;> rfl

/-- Settles O27: the read and the write of IRQ_STATUS, then completion, acceptance and reset. -/
theorem irqStatusRule : Obligations.IrqStatusRule := by
  refine ⟨fun s es hp h => ?_, fun s v es hp h => ?_, fun s s0 hs0 busy => ?_, fun s v hp ⟨es, h⟩ idle => ?_,
    fun s hp h => ⟨_, step_of_resetNext hp h, rfl⟩⟩
  · rw [step_of_registerRead hp (by norm_num) h, hostRead_irqStatus, irqStatusWord_eq]
    rfl
  · rw [step_of_registerWrite hp (by norm_num) h, hostWrite_irqStatus]
    cases v.getLsbD 0 <;> rfl
  · obtain ⟨t, ht, -, hdone, -⟩ := step_completes hs0 busy
    exact ⟨t, ht, hdone⟩
  · exact ⟨_, commandAccepted s v es hp h idle, rfl⟩

/-- The three fields of the PARAM word (R25). -/
theorem paramWord_toNat (p : Params) : (paramWord p).toNat = 8 * 2 ^ 16 + p.words % 2 ^ 16 := by
  unfold paramWord
  iterate 2 rw [append_toNat]
  rw [BitVec.toNat_ofNat p.words]
  rfl

/-- Settles O34: ID and PARAM read their words, and `W/32` fits in its field because it is legal. -/
theorem identificationRegisters : Obligations.IdentificationRegisters := by
  intro s v es hp
  obtain ⟨-, hwords, -⟩ := id hp
  refine ⟨fun h => ?_, fun h => ?_, fun h => ⟨paramWord s.params, ?_, ?_⟩, fun h => ?_⟩
  · rw [step_of_registerRead hp (by norm_num) h, hostRead_id]
    rfl
  · rw [step_of_registerWrite hp (by norm_num) h, hostWrite_id]
    rfl
  · rw [step_of_registerRead hp (by norm_num) h, hostRead_param]
    rfl
  · simp only [field_toNat, paramWord_toNat]
    omega
  · rw [step_of_registerWrite hp (by norm_num) h, hostWrite_param]
    rfl

/-- Bit 0 of the word a CTRL read returns is IRQ_EN, and every other bit is 0 (R28). -/
theorem ctrlWord_getLsbD (s : State) (j : Nat) : s.ctrlWord.getLsbD j = (decide (j = 0) && s.irqEn) := by
  cases j <;> simp [State.ctrlWord, BitVec.getLsbD_setWidth]

/-- Settles O35: the read returns the CTRL word, whose bits `ctrlWord_getLsbD` gives. -/
theorem ctrlReadRule : Obligations.CtrlReadRule := by
  intro s es hp h
  refine ⟨s.ctrlWord, ?_, ctrlWord_getLsbD s 0, fun j hj => ?_⟩
  · rw [step_of_registerRead hp (by norm_num) h, hostRead_ctrl]
    rfl
  · simp [ctrlWord_getLsbD, Nat.ne_of_gt hj]

/-- The layout of STATUS as arithmetic: every field at its bits (R29). -/
theorem statusWord_toNat (s : State) :
    s.statusWord.toNat = s.busy.toNat + 2 * s.err.toNat + 2 ^ 4 * (errCodeBits s.errCode).toNat + 2 ^ 8 * s.z.toNat +
      2 ^ 9 * s.cmp.bits.toNat + 2 ^ 16 * s.busyErr.toNat := by
  unfold State.statusWord
  iterate 8 rw [append_toNat]
  simp only [BitVec.toNat_ofBool, BitVec.toNat_ofNat]
  omega

/-- A single bit of a word as arithmetic (R8). -/
theorem getLsbD_of_toNat {w : Word} {j : Nat} {b : Bool} (h : w.toNat / 2 ^ j % 2 = b.toNat) : w.getLsbD j = b := by
  rw [BitVec.getLsbD, Nat.testBit_eq_decide_div_mod_eq, h]
  cases b <;> rfl

section StatusLayout
variable (s : State)

/-- The bits of STATUS that are a field of their own (R29). -/
theorem statusWord_bits :
    s.statusWord.getLsbD 0 = s.busy ∧ s.statusWord.getLsbD 1 = s.err ∧ s.statusWord.getLsbD 8 = s.z ∧
      s.statusWord.getLsbD 16 = s.busyErr := by
  have hbusy := s.busy.toNat_lt
  have herr := s.err.toNat_lt
  have hz := s.z.toNat_lt
  have hbusyErr := s.busyErr.toNat_lt
  have h := statusWord_toNat s
  refine ⟨?_, ?_, ?_, ?_⟩ <;> apply getLsbD_of_toNat <;> omega

/-- The wider fields of STATUS, and its reserved fields, which are 0 (R29). -/
theorem statusWord_fields :
    s.statusWord.extractLsb' 2 2 = 0#2 ∧ s.statusWord.extractLsb' 4 4 = errCodeBits s.errCode ∧
      s.statusWord.extractLsb' 9 2 = s.cmp.bits ∧ s.statusWord.extractLsb' 11 5 = 0#5 ∧
      s.statusWord.extractLsb' 17 15 = 0#15 := by
  have hbusy := s.busy.toNat_lt
  have herr := s.err.toNat_lt
  have hz := s.z.toNat_lt
  have hbusyErr := s.busyErr.toNat_lt
  simp only [← BitVec.toNat_inj, field_toNat, statusWord_toNat, BitVec.toNat_ofNat]
  omega

end StatusLayout

/-- Settles O36: the read returns the STATUS word, whose bits and fields are those the statement names. -/
theorem statusReadRule : Obligations.StatusReadRule := by
  intro s es hp h
  obtain ⟨busy, err, z, busyErr⟩ := statusWord_bits s
  obtain ⟨zero3, code, cmp, zero15, zero31⟩ := statusWord_fields s
  refine ⟨s.statusWord, ?_, busy, err, zero3, code, z, cmp, zero15, busyErr, zero31⟩
  rw [step_of_registerRead hp (by norm_num) h, hostRead_status]
  rfl

/-- Settles O37: CMDREG is read, is cleared by reset, and is in the frame of every completion. -/
theorem commandReadBack : Obligations.CommandReadBack := by
  refine ⟨fun s es hp h => ?_, rfl, fun s s0 hs0 busy => ?_⟩
  · rw [step_of_registerRead hp (by norm_num) h, hostRead_cmd]
    rfl
  · obtain ⟨t, ht, -, -, -, -, -, hcmd, -⟩ := step_completes hs0 busy
    exact ⟨t, ht, hcmd.trans hs0.cmdReg_eq⟩

end Sys2Proof.Proofs
end

section
/-! PROOFS. The memory family: the operand window, idle and refused, and the accesses the block ignores
(spec/20_memory.md). -/

namespace Sys2Proof.Proofs

open Sys2Proof.Machine Sys2Proof.Laws

/-! ## The operand window (R52 to R56) -/

section Window
variable {s : State} {r : Reg} {k : Nat} {es : List Event} (hp : s.params.Legal) (hk : k < s.params.words)
include hp hk

/-- Every window word is inside a legal aperture (R6, R51). -/
theorem windowOffset_lt_aperture : windowOffset s.params r k < s.params.aperture := by
  obtain ⟨-, -, ha⟩ := hp
  exact lt_of_lt_of_le (windowOffset_lt hk) ha

/-- A 32-bit window read is answered while idle and refused while a command is in progress (R53, R55). -/
theorem step_of_windowRead (h : s.pending = .host (.read (windowOffset s.params r k) 4) :: es) :
    step s = .next (if s.busy then ((s.setPending es).setBusyErr true).pushRead 0#32
      else (s.setPending es).pushRead (windowWord (s.reg r) k)) :=
  (step_of_read h (windowOffset_lt_aperture hp hk)).trans (congrArg _ (hostRead_window (s.setPending es) hk))

/-- A 32-bit window write is done while idle and refused while a command is in progress (R54, R55). -/
theorem step_of_windowWrite {v : Word} (h : s.pending = .host (.write (windowOffset s.params r k) 4 v) :: es) :
    step s = .next (if s.busy then (s.setPending es).setBusyErr true
      else (s.setPending es).setReg r (setWindowWord (s.reg r) k v)) :=
  (step_of_write h (windowOffset_lt_aperture hp hk)).trans (congrArg _ (hostWrite_window (s.setPending es) v hk))

theorem step_of_windowRead_idle (idle : s.busy = false)
    (h : s.pending = .host (.read (windowOffset s.params r k) 4) :: es) :
    step s = .next { s with pending := es, reads := s.reads ++ [windowWord (s.reg r) k] } := by
  rw [step_of_windowRead hp hk h, if_neg (Bool.eq_false_iff.mp idle)]
  rfl

end Window

/-- Settles O28: the word read is word `k` of the register, whose bits `windowWord_getLsbD` gives. -/
theorem windowReadWhileIdle : Obligations.WindowReadWhileIdle := by
  intro s r k es hp hk idle h
  refine ⟨windowWord (s.reg r) k, step_of_windowRead_idle hp hk idle h, fun j hj => ?_⟩
  rw [windowWord_getLsbD, decide_eq_true hj, Bool.true_and]

/-- Byte `b` of word `k` of a register value is byte `4k+b` of the value (R52, R56). -/
theorem windowWord_byte (v k : Nat) {b : Nat} (hb : b < 4) :
    ((windowWord v k).extractLsb' (8 * b) 8).toNat = v / 2 ^ (8 * (4 * k + b)) % 2 ^ 8 := by
  refine Nat.eq_of_testBit_eq fun j => ?_
  rw [BitVec.testBit_toNat, BitVec.getLsbD_extractLsb', windowWord_getLsbD, Nat.testBit_mod_two_pow,
    Nat.testBit_div_two_pow]
  by_cases hj : j < 8
  · have inWord : 8 * b + j < 32 := by omega
    have position : 32 * k + (8 * b + j) = j + 8 * (4 * k + b) := by ring
    rw [decide_eq_true inWord, position, Bool.true_and]
  · simp [hj]

/-- Settles O38, by the bytes of the word that a read while idle returns. -/
theorem windowIsLittleEndian : Obligations.WindowIsLittleEndian := by
  intro s r k b es hp hk hb idle h
  exact ⟨_, step_of_windowRead_idle hp hk idle h, windowWord_byte _ k hb⟩

/-- Settles O29: the write is one register write, of the register's value with word `k` replaced. -/
theorem windowWriteWhileIdle : Obligations.WindowWriteWhileIdle := by
  intro s r k v es hp hk idle h
  refine ⟨(s.setPending es).setReg r (setWindowWord (s.reg r) k v), ?_, rfl,
    fun q hq => State.setReg_reg_other _ _ hq, fun j => ?_⟩
  · rw [step_of_windowWrite hp hk h, if_neg (Bool.eq_false_iff.mp idle)]
  · rw [State.setReg_reg_same, setWindowWord_testBit]

/-- Settles O30: both accesses are refused, and of the three writers of a register (R21) a window write needs an idle
block. -/
theorem windowRefusedWhileBusy : Obligations.WindowRefusedWhileBusy := by
  refine ⟨fun s r k v es hp hk busy h => ?_, fun s r k es hp hk busy h => ?_, fun s t r busy h hne => ?_⟩
  · rw [step_of_windowWrite hp hk h, if_pos busy]
    rfl
  · rw [step_of_windowRead hp hk h, if_pos busy]
    rfl
  · obtain ⟨idle, -⟩ | ⟨-, turn, -⟩ | reset := operandRegisterWriters s t r h hne
    · exact absurd busy (Bool.eq_false_iff.mp idle)
    · exact .inl turn
    · exact .inr reset

/-! ## Ignored accesses (R57, R58) -/

/-- The block ignores the access: it is not a 32-bit aligned one (R57), or its offset selects nothing (R58). -/
def AccessIgnored (s : State) (off size : Nat) : Prop :=
  accessTaken off size = false ∨ locate s.params off = .unmapped

theorem hostWrite_ignored {s : State} {off size : Nat} (d : Word) (h : AccessIgnored s off size) :
    hostWrite s off size d = s := by
  unfold hostWrite
  obtain h | h := h
  · rw [h]; rfl
  · rw [h, writeTarget, ite_self]

theorem hostRead_ignored {s : State} {off size : Nat} (h : AccessIgnored s off size) :
    hostRead s off size = s.pushRead 0#32 := by
  unfold hostRead
  obtain h | h := h
  · rw [h]; rfl
  · rw [h, readEffect, readWord, ite_self]

/-- An ignored write changes nothing; an ignored read returns 0 and changes nothing else. -/
theorem step_of_ignored {s : State} {off size : Nat} (v : Word) (es : List Event) (ha : off < s.params.aperture)
    (hi : AccessIgnored s off size) :
    (s.pending = .host (.write off size v) :: es → step s = .next { s with pending := es }) ∧
    (s.pending = .host (.read off size) :: es →
      step s = .next { s with pending := es, reads := s.reads ++ [0#32] }) := by
  have hi' : AccessIgnored (s.setPending es) off size := hi
  refine ⟨fun h => ?_, fun h => ?_⟩
  · rw [step_of_write h ha, hostWrite_ignored v hi']
    rfl
  · rw [step_of_read h ha, hostRead_ignored hi']
    rfl

/-- Settles O31: such an access is not taken. -/
theorem badAccessIgnored : Obligations.BadAccessIgnored := by
  intro s off size v es ha bad
  have notTaken : accessTaken off size = false := by
    rw [Bool.eq_false_iff, Ne, accessTaken_iff, not_and_or]
    exact bad
  exact step_of_ignored v es ha (.inl notTaken)

/-- The two ranges of offsets that select nothing (R51). -/
theorem locate_unmapped {p : Params} {off : Nat} (h : (0x018 ≤ off ∧ off ≤ 0xFFF) ∨ 0x1000 + p.width ≤ off) :
    locate p off = .unmapped := by
  unfold locate
  iterate 7 rw [if_neg (by omega)]

/-- Settles O32: such an offset selects nothing. -/
theorem unmappedAccessIgnored : Obligations.UnmappedAccessIgnored := by
  intro s off size v es ha hoff
  exact step_of_ignored v es ha (.inr (locate_unmapped hoff))

/-! ## The side effect of a read (R60) -/

/-- Settles O33, by the two things a host read can do. -/
theorem readsHaveNoSideEffect : Obligations.ReadsHaveNoSideEffect := by
  intro s off size es ha h
  rw [step_of_read h ha]
  obtain ⟨v, ⟨notRefused, e⟩ | ⟨refused, e⟩⟩ := hostRead_cases (s.setPending es) off size <;> rw [e]
  · exact ⟨v, fun refused => absurd refused notRefused, fun _ => rfl⟩
  · exact ⟨v, fun _ => rfl, fun notRefused => absurd refused notRefused⟩

end Sys2Proof.Proofs
end

section
/-! PROOFS. The encoding family: what a word decodes to, the bits that decide it, and the decoding procedure at
completion (spec/30_encoding.md). -/

namespace Sys2Proof.Proofs

open Sys2Proof.Machine Sys2Proof.Laws

/-! ## The command an opcode selects (R85, R86) -/

/-- The command of `i`'s kind with the operands that the fields of `w` give (R86). `instrOf_eq_some_iff` ties it to the
decoder. -/
def operandsFrom (w : Word) : Instr → Instr
  | .nop => .nop
  | .mul _ _ _ _ => .mul (rdField w) (rd2Field w) (rs1Field w) (rs2Field w)
  | .modmul _ _ _ _ => .modmul (rdField w) (rs1Field w) (rs2Field w) (rs3Field w)
  | .mod _ _ _ => .mod (rdField w) (rs1Field w) (rs2Field w)
  | .modadd _ _ _ _ => .modadd (rdField w) (rs1Field w) (rs2Field w) (rs3Field w)
  | .modsub _ _ _ _ => .modsub (rdField w) (rs1Field w) (rs2Field w) (rs3Field w)
  | .modexp _ _ _ _ => .modexp (rdField w) (rs1Field w) (rs2Field w) (rs3Field w)
  | .gcd _ _ _ => .gcd (rdField w) (rs1Field w) (rs2Field w)
  | .modinv _ _ _ => .modinv (rdField w) (rs1Field w) (rs2Field w)
  | .lcm _ _ _ => .lcm (rdField w) (rs1Field w) (rs2Field w)
  | .mov _ _ => .mov (rdField w) (rs1Field w)
  | .movi _ _ => .movi (rdField w) (imm16Field w)
  | .add _ _ _ => .add (rdField w) (rs1Field w) (rs2Field w)
  | .sub _ _ _ => .sub (rdField w) (rs1Field w) (rs2Field w)
  | .divmod _ _ _ _ => .divmod (rdField w) (rd2Field w) (rs1Field w) (rs2Field w)
  | .cmp _ _ => .cmp (rs1Field w) (rs2Field w)
  | .smod _ _ _ => .smod (rdField w) (rs1Field w) (rs2Field w)
  | .sremap _ _ _ => .sremap (rdField w) (rs1Field w) (rs2Field w)

theorem instrOf_of_opcode {w : Word} {i : Instr} (h : opcodeField w = opcodeOf i) :
    instrOf w = some (operandsFrom w i) := by
  unfold instrOf
  rw [h]
  cases i <;> rfl

theorem opcodeField_of_instrOf {w : Word} {i : Instr} (h : instrOf w = some i) : opcodeField w = opcodeOf i := by
  unfold instrOf at h
  split at h <;> cases h <;> assumption

/-- A word selects a command when it has the command's opcode and its fields give the command's operands. -/
theorem instrOf_eq_some_iff (w : Word) (i : Instr) :
    instrOf w = some i ↔ opcodeField w = opcodeOf i ∧ operandsFrom w i = i := by
  constructor
  · intro h
    have hop := opcodeField_of_instrOf h
    exact ⟨hop, Option.some.inj ((instrOf_of_opcode hop).symm.trans h)⟩
  · rintro ⟨hop, hfields⟩
    rw [instrOf_of_opcode hop, hfields]

/-- The opcodes that select a command are the assigned ones (R88). -/
theorem instrOf_isSome_iff (w : Word) : (instrOf w).isSome = true ↔ opcodeField w ∈ assignedOpcodes := by
  unfold instrOf
  split <;> simp_all [assignedOpcodes]

/-! ## Decoding an encoding (R81, R82) -/

theorem encodeShape (i : Instr) : EncodeShape.Statement i := by
  cases i with
  | movi rd imm16 => exact EncodeShape.movi rd imm16
  | _ => exact EncodeShape.formatR (by decide) _ _ _ _ _

theorem operandsFrom_encode (i : Instr) : operandsFrom (encode i) i = i := by
  cases i <;> simp [operandsFrom, encode]

/-- Settles O1: the encoding has the command's opcode, its operands in the fields, and clear reserved bits. -/
theorem decodeEncodeRoundTrip : Obligations.DecodeEncodeRoundTrip := by
  intro i
  obtain ⟨hop, hreserved⟩ := encodeShape i
  exact (decode_ok_iff _ i).mpr ⟨(instrOf_eq_some_iff _ i).mpr ⟨hop, operandsFrom_encode i⟩, hreserved⟩

/-! ## The bits that decide what a word decodes to (R83, R86) -/

/-- A word of format R is given by its fields and clear reserved bits (R81). -/
theorem eq_wordR_iff {w : Word} {op : BitVec 8} {rd rd2 rs1 rs2 rs3 : Reg} :
    w = wordR op rd rd2 rs1 rs2 rs3 ↔ opcodeField w = op ∧ w.extractLsb' 23 9 = 0#9 ∧ rdField w = rd ∧
      rd2Field w = rd2 ∧ rs1Field w = rs1 ∧ rs2Field w = rs2 ∧ rs3Field w = rs3 := by
  constructor
  · rintro rfl
    simp [wordR_reserved]
  · rintro ⟨rfl, hres, rfl, rfl, rfl, rfl, rfl⟩
    have reserved := congrArg BitVec.toNat hres
    apply BitVec.eq_of_toNat_eq
    rw [wordR_toNat]
    simp only [opcodeField, rdField, rd2Field, rs1Field, rs2Field, rs3Field, field_toNat, BitVec.toNat_ofNat]
      at reserved ⊢
    omega

/-- A word of format I is given by its fields and clear reserved bits (R82). -/
theorem eq_wordI_iff {w : Word} {op : BitVec 8} {rd : Reg} {imm16 : BitVec 16} :
    w = wordI op rd imm16 ↔
      opcodeField w = op ∧ w.extractLsb' 11 5 = 0#5 ∧ rdField w = rd ∧ imm16Field w = imm16 := by
  constructor
  · rintro rfl
    simp [wordI_reserved]
  · rintro ⟨rfl, hres, rfl, rfl⟩
    have reserved := congrArg BitVec.toNat hres
    apply BitVec.eq_of_toNat_eq
    rw [wordI_toNat]
    simp only [opcodeField, rdField, imm16Field, field_toNat, BitVec.toNat_ofNat] at reserved ⊢
    omega

/-- A masked word of format R, field by field, for a mask that keeps the opcode and the reserved bits. -/
theorem and_eq_wordR_iff {w m : Word} (mop : opcodeField m = 0xFF#8) (mreserved : m.extractLsb' 23 9 = 0x1FF#9)
    {op : BitVec 8} (hop : op ≠ 0x41#8) {rd rd2 rs1 rs2 rs3 : Reg} :
    w &&& m = wordR op rd rd2 rs1 rs2 rs3 ↔ opcodeField w = op ∧ reservedClear w = true ∧
      rdField w &&& rdField m = rd ∧ rd2Field w &&& rd2Field m = rd2 ∧ rs1Field w &&& rs1Field m = rs1 ∧
      rs2Field w &&& rs2Field m = rs2 ∧ rs3Field w &&& rs3Field m = rs3 := by
  have opcode_and : opcodeField (w &&& m) = opcodeField w := by
    rw [opcodeField, BitVec.extractLsb'_and]
    exact (congrArg _ mop).trans BitVec.and_allOnes
  have reserved_and : (w &&& m).extractLsb' 23 9 = w.extractLsb' 23 9 := by
    rw [BitVec.extractLsb'_and, mreserved]
    exact BitVec.and_allOnes
  rw [eq_wordR_iff, opcode_and, reserved_and]
  refine and_congr_right fun h => and_congr ?_ ?_
  · rw [reservedClear_formatR (h ▸ hop), beq_iff_eq]
  · simp only [rdField, rd2Field, rs1Field, rs2Field, rs3Field, BitVec.extractLsb'_and]

/-- Masking with the bits a command uses gives its encoding exactly when the opcode, the reserved bits and the command's
own fields are those of the command: MOVI uses the whole word, every other command masks its unused fields away (R86). -/
theorem and_usedBits_eq_encode_iff (w : Word) (i : Instr) :
    w &&& usedBits i = encode i ↔ opcodeField w = opcodeOf i ∧ reservedClear w = true ∧ operandsFrom w i = i := by
  cases i with
  | movi rd imm16 =>
    have whole : w &&& usedBits (.movi rd imm16) = w := BitVec.and_allOnes
    rw [whole, encode, eq_wordI_iff]
    refine and_congr_right fun h => and_congr ?_ ?_
    · rw [reservedClear_formatI h, beq_iff_eq]
    · simp [operandsFrom]
  | _ =>
    have and_seven (r : Reg) : r &&& 7#3 = r := BitVec.and_allOnes
    rw [usedBits, encode, and_eq_wordR_iff (by decide) (by decide) (by decide)]
    simp [opcodeOf, operandsFrom, rdField, rd2Field, rs1Field, rs2Field, rs3Field, and_seven]

/-- A word decodes to a command exactly when masking it with the bits the command uses gives the command's encoding. -/
theorem decode_ok_iff_masked (w : Word) (i : Instr) : decode w = .ok i ↔ w &&& usedBits i = encode i := by
  rw [and_usedBits_eq_encode_iff, decode_ok_iff, instrOf_eq_some_iff, and_assoc, and_comm (a := operandsFrom w i = i)]

/-- Settles O2: what a word decodes to depends on its masked bits alone. -/
theorem unusedFieldsIgnored : Obligations.UnusedFieldsIgnored := by
  intro w i h
  have masked := (decode_ok_iff_masked w i).mp h
  exact ⟨masked.symm, fun w' hw' => (decode_ok_iff_masked w' i).mpr (hw'.trans masked)⟩

/-! ## The decoding procedure at completion (R90) -/

/-- The second and third checks of R90: the reserved bits of the word's format (R87). -/
theorem reservedClear_eq_false_iff (w : Word) :
    reservedClear w = false ↔ (opcodeField w = 0x41#8 ∧ w.extractLsb' 11 5 ≠ 0#5) ∨
      (opcodeField w ≠ 0x41#8 ∧ w.extractLsb' 23 9 ≠ 0#9) := by
  by_cases h : opcodeField w = 0x41#8
  · simp [reservedClear_formatI h, h]
  · simp [reservedClear_formatR h, h]

/-- The fourth check of R90: the commands that are not well formed are MUL and DIVMOD with `rd = rd2` (R89). -/
theorem operandsFrom_wellFormed_eq_false_iff (w : Word) (i : Instr) :
    (operandsFrom w i).wellFormed = false ↔
      (opcodeOf i = 0x10#8 ∨ opcodeOf i = 0x44#8) ∧ rdField w = rd2Field w := by
  cases i <;> simp [operandsFrom, Instr.wellFormed, opcodeOf]

/-- A word that passes the first three checks of R90 decodes, and the fourth is whether its command is well formed. -/
theorem decode_of_checks {w : Word} (assigned : opcodeField w ∈ assignedOpcodes) (reserved : reservedClear w = true) :
    ∃ i, decode w = .ok i ∧ (i.wellFormed = false ↔
      (opcodeField w = 0x10#8 ∨ opcodeField w = 0x44#8) ∧ rdField w = rd2Field w) := by
  obtain ⟨i, hi⟩ := Option.isSome_iff_exists.mp ((instrOf_isSome_iff w).mpr assigned)
  obtain ⟨hop, hfields⟩ := (instrOf_eq_some_iff w i).mp hi
  refine ⟨i, (decode_ok_iff w i).mpr ⟨hi, reserved⟩, ?_⟩
  rw [hop, ← operandsFrom_wellFormed_eq_false_iff, hfields]

/-- MUL and DIVMOD make the check `rd = rd2` before anything else (R89; log entry 9). -/
theorem exec_of_not_wellFormed {i : Instr} (h : i.wellFormed = false) (s : State) :
    exec i s = .next (s.raiseError .badForm) := by
  cases i with
  | mul rd rd2 rs1 rs2 =>
    have same : rd = rd2 := bne_eq_false_iff_eq.mp h
    rw [exec, execMul, if_pos same, State.complete]
  | divmod rd rd2 rs1 rs2 =>
    have same : rd = rd2 := bne_eq_false_iff_eq.mp h
    rw [exec, execDivmod, if_pos same, State.complete]
  | _ => cases h

section Completion
variable {s s0 : State} (hs0 : EngineNext s s0) (busy : s.busy = true)
include hs0 busy

/-- The engine's turn completes a word that does not decode with the decoder's error (R213). -/
theorem step_of_decode_error {c : CmdError} (h : decode s.cmdReg = .error c) :
    ∃ t, step s = .next t ∧ ErrorCompletion s0 c t := by
  refine ⟨s0.raiseError c, ?_, errorCompletion_raiseError s0 c⟩
  rw [step_of_engineNext hs0, engineTurn, hs0.busy_eq, if_pos busy, hs0.cmdReg_eq, h]

theorem step_of_unassigned (h : opcodeField s.cmdReg ∉ assignedOpcodes) :
    ∃ t, step s = .next t ∧ ErrorCompletion s0 .illegalOpcode t := by
  have noCommand : instrOf s.cmdReg = none := Option.not_isSome_iff_eq_none.mp (mt (instrOf_isSome_iff _).mp h)
  exact step_of_decode_error hs0 busy ((decode_illegal_iff _).mpr noCommand)

theorem step_of_reserved_set (assigned : opcodeField s.cmdReg ∈ assignedOpcodes)
    (reserved : reservedClear s.cmdReg = false) : ∃ t, step s = .next t ∧ ErrorCompletion s0 .badForm t :=
  step_of_decode_error hs0 busy ((decode_badForm_iff _).mpr ⟨(instrOf_isSome_iff _).mpr assigned, reserved⟩)

theorem step_of_not_wellFormed {i : Instr} (decoded : decode s.cmdReg = .ok i) (h : i.wellFormed = false) :
    ∃ t, step s = .next t ∧ ErrorCompletion s0 .badForm t := by
  refine ⟨s0.raiseError .badForm, ?_, errorCompletion_raiseError s0 _⟩
  rw [stepRunsDecodedCommand s s0 i hs0 busy decoded, exec_of_not_wellFormed h]

end Completion

/-- Settles O4, by the checks in the order of R90: the first two kinds of error are the decoder's, the third is the
command's own, and a word that passes them all decodes to the command its masked bits encode. -/
theorem decodingProcedureAtCompletion : Obligations.DecodingProcedureAtCompletion := by
  intro s s0 hs0 busy w op
  by_cases unassigned : op ∉ assignedOpcodes
  · rw [if_pos unassigned]
    exact step_of_unassigned hs0 busy unassigned
  have assigned : opcodeField w ∈ assignedOpcodes := not_not.mp unassigned
  rw [if_neg unassigned]
  split_ifs with reservedI reservedR sameDest
  · exact step_of_reserved_set hs0 busy assigned ((reservedClear_eq_false_iff w).mpr (.inl reservedI))
  · exact step_of_reserved_set hs0 busy assigned ((reservedClear_eq_false_iff w).mpr (.inr reservedR))
  all_goals
    have reserved : reservedClear w = true := by
      rw [← Bool.not_eq_false, reservedClear_eq_false_iff, not_or]
      exact ⟨reservedI, reservedR⟩
    obtain ⟨i, decoded, wellFormed_iff⟩ := decode_of_checks assigned reserved
  · exact step_of_not_wellFormed hs0 busy decoded (wellFormed_iff.mpr sameDest)
  · have wellFormed : i.wellFormed = true := Bool.eq_true_of_not_eq_false (mt wellFormed_iff.mp sameDest)
    exact ⟨i, (unusedFieldsIgnored w i decoded).1, wellFormed, stepRunsDecodedCommand s s0 i hs0 busy decoded⟩

end Sys2Proof.Proofs
end

section
/-! PROOFS. The modular multiplier family: MUL, MODMUL, MOD, MODADD, MODSUB (spec/40_modular_multiplier.md), and the words
of the worked examples. -/

namespace Sys2Proof.Proofs

open Sys2Proof.Machine Sys2Proof.Laws

/-! ## The encoding clauses of a command's rule (R81, R83, R87) -/

/-- The command `f` of a word's fields, of an opcode `op` of format R, is selected as R81, R83 and R87 say, whatever the
fields it ignores hold. -/
theorem selectedByFormatR {op : BitVec 8} {f : Reg → Reg → Reg → Reg → Reg → Instr} (hop : op ≠ 0x41#8)
    (opcode : ∀ rd rd2 rs1 rs2 rs3, opcodeOf (f rd rd2 rs1 rs2 rs3) = op)
    (operands : ∀ w rd rd2 rs1 rs2 rs3, operandsFrom w (f rd rd2 rs1 rs2 rs3) =
      f (rdField w) (rd2Field w) (rs1Field w) (rs2Field w) (rs3Field w)) :
    SelectedByFormatR op f := by
  intro w hw
  have selected : instrOf w = some _ := (instrOf_eq_some_iff w _).mpr
    ⟨hw.trans (opcode _ _ _ _ _).symm, operands w (rdField w) (rd2Field w) (rs1Field w) (rs2Field w) (rs3Field w)⟩
  have formatR : reservedClear w = (w.extractLsb' 23 9 == 0#9) :=
    reservedClear_formatR fun h => hop (hw.symm.trans h)
  constructor
  · intro clear
    exact (decode_ok_iff w _).mpr ⟨selected, formatR.trans (beq_iff_eq.mpr clear)⟩
  · intro reservedSet
    exact (decode_badForm_iff w).mpr ⟨Option.isSome_of_eq_some selected, formatR.trans (beq_false_of_ne reservedSet)⟩

/-- A field that starts above everything below it is added by the bitwise or that R81 writes. -/
theorem or_shiftLeft_eq_add {a k : Nat} (b : Nat) (h : a < 2 ^ k) : a ||| b <<< k = a + 2 ^ k * b := by
  rw [Nat.or_comm, ← Nat.shiftLeft_add_eq_or_of_lt h, Nat.shiftLeft_eq, Nat.add_comm, Nat.mul_comm]

/-- The encoder's word of format R is the word R81 writes with shifts. -/
theorem wordR_eq_formatRWord (op : BitVec 8) (rd rd2 rs1 rs2 rs3 : Reg) :
    wordR op rd rd2 rs1 rs2 rs3 = formatRWord op.toNat rd rd2 rs1 rs2 rs3 := by
  apply BitVec.eq_of_toNat_eq
  rw [wordR_toNat, formatRWord, BitVec.toNat_ofNat]
  simp (disch := omega) only [or_shiftLeft_eq_add]
  omega

/-! ## The completion clauses of a command's rule (R212, R213) -/

section Completion
variable {i : Instr} {s : State}

theorem failsWith_of_exec {c : CmdError} (h : exec i s = .next (s.complete (.error c))) : FailsWith i s c :=
  ⟨_, h, errorCompletion_raiseError s c⟩

theorem failsWith_badForm_of_not_wellFormed (h : i.wellFormed = false) : FailsWith i s .badForm :=
  failsWith_of_exec (exec_of_not_wellFormed h s)

theorem succeeds_oneDest {rd : Reg} {v : Nat} (h : exec i s = .next (s.complete (.ok (oneDest rd v)))) :
    Succeeds i s [(rd, v)] (decide (v = 0)) s.cmp :=
  ⟨_, h, successful_oneDest s rd v⟩

theorem succeeds_twoDest {rd rd2 : Reg} {v v2 : Nat} {z : Bool} (hne : rd ≠ rd2)
    (h : exec i s = .next (s.complete (.ok (twoDest rd rd2 v v2 z)))) :
    Succeeds i s [(rd, v), (rd2, v2)] z s.cmp :=
  ⟨_, h, successful_twoDest s v v2 z hne⟩

/-- The two clauses of every modular command: DIV_ZERO for a zero modulus, else the one destination (R110). -/
theorem modular_rule {rd : Reg} {m v : Nat} (h : exec i s = .next (s.complete (modResult rd m v))) :
    (m = 0 → FailsWith i s .divZero) ∧ (m ≠ 0 → Succeeds i s [(rd, v)] (decide (v = 0)) s.cmp) := by
  constructor
  · intro hm
    exact failsWith_of_exec (by rw [h, modResult, if_pos hm])
  · intro hm
    exact succeeds_oneDest (by rw [h, modResult, if_neg hm])

end Completion

/-! ## The commands

The completion of a modular command is by definition one with a `modResult`; MUL's is one after its form check. -/

/-- With different destinations MUL completes with the two halves of the exact product (R111). -/
theorem exec_mul_of_ne {rd rd2 : Reg} (hne : rd ≠ rd2) (rs1 rs2 : Reg) (s : State) :
    exec (.mul rd rd2 rs1 rs2) s = .next (s.complete (.ok (twoDest rd rd2
      (s.reg rs1 * s.reg rs2 % s.bound) (s.reg rs1 * s.reg rs2 / s.bound) (zeroFlag (s.reg rs1 * s.reg rs2))))) := by
  rw [exec, execMul, if_neg hne]

/-- Settles O43: equal destinations are not well formed, and different ones take the two halves of the product. -/
theorem mulRule : Obligations.MulRule := by
  refine ⟨selectedByFormatR (by decide) (fun _ _ _ _ _ => rfl) (fun _ _ _ _ _ _ => rfl),
    fun rd rd2 rs1 rs2 => ⟨wordR_eq_formatRWord 0x10 rd rd2 rs1 rs2 0, fun s => ⟨fun same => ?_, fun hne => ?_⟩⟩⟩
  · exact failsWith_badForm_of_not_wellFormed (bne_eq_false_iff_eq.mpr same)
  · exact succeeds_twoDest hne (exec_mul_of_ne hne rs1 rs2 s)

/-- Settles O44: MODMUL is a modular command with the residue of the exact product. -/
theorem modmulRule : Obligations.ModmulRule :=
  ⟨selectedByFormatR (by decide) (fun _ _ _ _ _ => rfl) (fun _ _ _ _ _ _ => rfl),
    fun rd rs1 rs2 rs3 => ⟨wordR_eq_formatRWord 0x11 rd 0 rs1 rs2 rs3, fun _ => modular_rule rfl⟩⟩

/-- Settles O45: MOD is a modular command with the residue of its first source. -/
theorem modRule : Obligations.ModRule :=
  ⟨selectedByFormatR (by decide) (fun _ _ _ _ _ => rfl) (fun _ _ _ _ _ _ => rfl),
    fun rd rs1 rs2 => ⟨wordR_eq_formatRWord 0x12 rd 0 rs1 rs2 0, fun _ => modular_rule rfl⟩⟩

/-- Settles O46: MODADD is a modular command with the residue of the exact sum. -/
theorem modaddRule : Obligations.ModaddRule :=
  ⟨selectedByFormatR (by decide) (fun _ _ _ _ _ => rfl) (fun _ _ _ _ _ _ => rfl),
    fun rd rs1 rs2 rs3 => ⟨wordR_eq_formatRWord 0x13 rd 0 rs1 rs2 rs3, fun _ => modular_rule rfl⟩⟩

/-- Settles O47: MODSUB is a modular command whose value `floorMod` is the residue of the integer difference. -/
theorem modsubRule : Obligations.ModsubRule := by
  refine ⟨selectedByFormatR (by decide) (fun _ _ _ _ _ => rfl) (fun _ _ _ _ _ _ => rfl),
    fun rd rs1 rs2 rs3 => ⟨wordR_eq_formatRWord 0x14 rd 0 rs1 rs2 rs3, fun s => ?_⟩⟩
  obtain ⟨zeroModulus, residue⟩ := modular_rule (i := .modsub rd rs1 rs2 rs3) (s := s) rfl
  exact ⟨zeroModulus, fun hm => ⟨_, floorMod_cast _ hm, floorMod_lt _ hm, residue hm⟩⟩

/-! ## The worked examples -/

/-- Settles O3: ten fixed words, decoded. -/
theorem specWordsDecode : Obligations.SpecWordsDecode := by
  unfold Obligations.SpecWordsDecode
  decide

end Sys2Proof.Proofs
end

section
/-! PROOFS. The modular exponentiation family: MODEXP (spec/41_modexp.md). -/

namespace Sys2Proof.Proofs

open Sys2Proof.Machine Sys2Proof.Laws

/-- MODEXP is a modular command whose value, computed by squaring, is the exact power reduced (R140; log entry 14). -/
theorem exec_modexp (rd rs1 rs2 rs3 : Reg) (s : State) :
    exec (.modexp rd rs1 rs2 rs3) s =
      .next (s.complete (modResult rd (s.reg rs3) (s.reg rs1 ^ s.reg rs2 % s.reg rs3))) := by
  rw [exec, execModexp, powMod_eq]

/-- Settles O48: MODEXP is a modular command with the residue of the exact power. -/
theorem modexpRule : Obligations.ModexpRule :=
  ⟨selectedByFormatR (by decide) (fun _ _ _ _ _ => rfl) (fun _ _ _ _ _ _ => rfl),
    fun rd rs1 rs2 rs3 => ⟨wordR_eq_formatRWord 0x20 rd 0 rs1 rs2 rs3,
      fun s => modular_rule (exec_modexp rd rs1 rs2 rs3 s)⟩⟩

end Sys2Proof.Proofs
end

section
/-! PROOFS. The gcd / extended-Euclid family: GCD, MODINV, LCM (spec/42_gcd_exteuclid.md). -/

namespace Sys2Proof.Proofs

open Sys2Proof.Machine Sys2Proof.Laws

/-- A command that first checks for an error ends with it when the check fails; else it completes as the rest of its
rule says. A chain of checks is taken in the order of R211 by one use per check. -/
theorem exec_check_cases {i : Instr} {s : State} {p : Prop} [Decidable p] {c : CmdError} {r : CmdResult}
    (h : exec i s = .next (s.complete (if p then .error c else r))) :
    (p → FailsWith i s c) ∧ (¬ p → exec i s = .next (s.complete r)) := by
  constructor
  · intro hp
    exact failsWith_of_exec (by rw [h, if_pos hp])
  · intro hp
    rw [h, if_neg hp]

/-- Settles O49: GCD completes without a check, and the value it writes has the property of the greatest common
divisor. -/
theorem gcdRule : Obligations.GcdRule :=
  ⟨selectedByFormatR (by decide) (fun _ _ _ _ _ => rfl) (fun _ _ _ _ _ _ => rfl),
    fun rd rs1 rs2 => ⟨wordR_eq_formatRWord 0x30 rd 0 rs1 rs2 0, fun s =>
      ⟨Nat.gcd (s.reg rs1) (s.reg rs2), Nat.gcd_dvd_left _ _, Nat.gcd_dvd_right _ _, fun _ => Nat.dvd_gcd,
        succeeds_oneDest rfl⟩⟩⟩

/-- Settles O50: past its checks for a zero modulus and for a common factor, MODINV writes `modInverse`, which is an
inverse and the only one. -/
theorem modinvRule : Obligations.ModinvRule := by
  refine ⟨selectedByFormatR (by decide) (fun _ _ _ _ _ => rfl) (fun _ _ _ _ _ _ => rfl),
    fun rd rs1 rs2 => ⟨wordR_eq_formatRWord 0x31 rd 0 rs1 rs2 0, fun s => ?_⟩⟩
  obtain ⟨zeroModulus, nonzero⟩ := exec_check_cases (i := .modinv rd rs1 rs2) (s := s) rfl
  refine ⟨zeroModulus, fun hm common => (exec_check_cases (nonzero hm)).1 common, fun hm coprime => ?_⟩
  obtain ⟨inRange, inverse⟩ := modInverse_spec hm coprime
  refine ⟨modInverse (s.reg rs1) (s.reg rs2), inRange, inverse, fun y hy yInverse => ?_, ?_⟩
  · exact modInverse_unique coprime hy inRange yInverse inverse
  · exact succeeds_oneDest ((exec_check_cases (nonzero hm)).2 (not_not.mpr coprime))

/-- Settles O51: past its checks for two zeros and for a value that does not fit, LCM writes the exact quotient. -/
theorem lcmRule : Obligations.LcmRule := by
  refine ⟨selectedByFormatR (by decide) (fun _ _ _ _ _ => rfl) (fun _ _ _ _ _ _ => rfl),
    fun rd rs1 rs2 => ⟨wordR_eq_formatRWord 0x32 rd 0 rs1 rs2 0, fun s => ?_⟩⟩
  obtain ⟨bothZero, notBothZero⟩ := exec_check_cases (i := .lcm rd rs1 rs2) (s := s) rfl
  refine ⟨bothZero, fun hab tooLarge => ?_, fun hab fits => ?_⟩
  · exact (exec_check_cases (notBothZero hab)).1 tooLarge
  · exact succeeds_oneDest ((exec_check_cases (notBothZero hab)).2 (not_le.mpr fits))

end Sys2Proof.Proofs
end

section
/-! PROOFS. The big-integer arithmetic ALU family: NOP, MOV, MOVI, ADD, SUB, DIVMOD, CMP, SMOD, SREMAP
(spec/43_alu.md). -/

namespace Sys2Proof.Proofs

open Sys2Proof.Machine Sys2Proof.Laws

/-! ## Commands with no destination: NOP and CMP -/

/-- A command that names no destination writes no register (R171, R177). -/
theorem succeeds_noDest {i : Instr} {s : State} {z : Option Bool} {c : Option CmpFlag}
    (h : exec i s = .next (s.complete (.ok { writes := [], z := z, cmp := c }))) :
    Succeeds i s [] (z.getD s.z) (c.getD s.cmp) :=
  ⟨_, h, successful_noDest s z c⟩

theorem nop_succeeds (s : State) : Succeeds .nop s [] s.z s.cmp := succeeds_noDest (z := none) (c := none) rfl

/-- Settles O52: NOP writes nothing, so its completion leaves ERR and ERRCODE as the acceptance before it cleared
them. -/
theorem nopRule : Obligations.NopRule := by
  refine ⟨selectedByFormatR (by decide) (fun _ _ _ _ _ => rfl) (fun _ _ _ _ _ _ => rfl), rfl,
    decodeEncodeRoundTrip .nop, fun s => ⟨nop_succeeds s, fun w => ⟨rfl, rfl, rfl, ?_⟩⟩⟩
  obtain ⟨t, ht, ⟨busy, done, -⟩, err, errCode, -, -, -, regs⟩ := nop_succeeds (s.accept w)
  exact ⟨t, ht, busy, err, errCode, done, fun r => regs r fun _ => List.not_mem_nil⟩

/-- The two bits STATUS.CMP holds after a comparison (R35, R177). -/
theorem cmpFlag_bits (a b : Nat) : (cmpFlag a b).bits = if a = b then 0b00#2 else if a < b then 0b01#2 else 0b10#2 := by
  unfold cmpFlag
  split_ifs <;> rfl

/-- Settles O58: CMP writes the two flags of the comparison and has no destination. -/
theorem cmpRule : Obligations.CmpRule :=
  ⟨selectedByFormatR (by decide) (fun _ _ _ _ _ => rfl) (fun _ _ _ _ _ _ => rfl),
    fun rs1 rs2 => ⟨wordR_eq_formatRWord 0x45 0 0 rs1 rs2 0,
      fun s => ⟨_, cmpFlag_bits (s.reg rs1) (s.reg rs2), succeeds_noDest (z := some _) (c := some _) rfl⟩⟩⟩

/-! ## Copies: MOV and MOVI -/

/-- Settles O53: MOV completes without a check, with the source as the value of its one destination. -/
theorem movRule : Obligations.MovRule :=
  ⟨selectedByFormatR (by decide) (fun _ _ _ _ _ => rfl) (fun _ _ _ _ _ _ => rfl),
    fun rd rs1 => ⟨wordR_eq_formatRWord 0x40 rd 0 rs1 0 0, fun _ => succeeds_oneDest rfl⟩⟩

/-- MOVI's opcode selects MOVI with the fields of format I, and its reserved bits are those of format I (R82, R87). -/
theorem decode_of_movi_opcode {w : Word} (h : opcodeField w = 0x41#8) :
    (w.extractLsb' 11 5 = 0#5 → decode w = .ok (.movi (rdField w) (imm16Field w))) ∧
    (w.extractLsb' 11 5 ≠ 0#5 → decode w = .error .badForm) := by
  have selected : instrOf w = some (.movi (rdField w) (imm16Field w)) := instrOf_of_opcode (i := .movi 0 0) h
  have formatI : reservedClear w = (w.extractLsb' 11 5 == 0#5) := reservedClear_formatI h
  constructor
  · intro clear
    exact (decode_ok_iff w _).mpr ⟨selected, formatI.trans (beq_iff_eq.mpr clear)⟩
  · intro reservedSet
    exact (decode_badForm_iff w).mpr ⟨Option.isSome_of_eq_some selected, formatI.trans (beq_false_of_ne reservedSet)⟩

/-- The encoder's word of format I is the word R82 writes with shifts. -/
theorem wordI_eq_formatIWord (op : BitVec 8) (rd : Reg) (imm16 : BitVec 16) :
    wordI op rd imm16 = formatIWord op.toNat rd imm16 := by
  apply BitVec.eq_of_toNat_eq
  rw [wordI_toNat, formatIWord, BitVec.toNat_ofNat]
  simp (disch := omega) only [or_shiftLeft_eq_add]
  omega

/-- Settles O54: MOVI, the one command of format I, completes with its immediate as the value of its destination. -/
theorem moviRule : Obligations.MoviRule :=
  ⟨fun _ => decode_of_movi_opcode,
    fun rd imm16 => ⟨wordI_eq_formatIWord 0x41 rd imm16, fun _ => succeeds_oneDest rfl⟩⟩

/-! ## Exact arithmetic: ADD, SUB and DIVMOD (R170) -/

/-- Settles O55: past its check for a sum that does not fit, ADD writes the sum. -/
theorem addRule : Obligations.AddRule := by
  refine ⟨selectedByFormatR (by decide) (fun _ _ _ _ _ => rfl) (fun _ _ _ _ _ _ => rfl),
    fun rd rs1 rs2 => ⟨wordR_eq_formatRWord 0x42 rd 0 rs1 rs2 0, fun s => ?_⟩⟩
  obtain ⟨tooLarge, fits⟩ := exec_check_cases (i := .add rd rs1 rs2) (s := s) rfl
  exact ⟨tooLarge, fun h => succeeds_oneDest (fits (not_le.mpr h))⟩

/-- Settles O56: past its check for a negative difference, SUB writes the truncated difference, which is then exact. -/
theorem subRule : Obligations.SubRule := by
  refine ⟨selectedByFormatR (by decide) (fun _ _ _ _ _ => rfl) (fun _ _ _ _ _ _ => rfl),
    fun rd rs1 rs2 => ⟨wordR_eq_formatRWord 0x43 rd 0 rs1 rs2 0, fun s => ?_⟩⟩
  obtain ⟨negative, fits⟩ := exec_check_cases (i := .sub rd rs1 rs2) (s := s) rfl
  exact ⟨negative, fun h => ⟨_, Nat.sub_add_cancel h, succeeds_oneDest (fits (not_lt.mpr h))⟩⟩

/-- DIVMOD's Z, computed from the zero flags of its two values, says whether both are 0 (R34, R176). -/
theorem zeroFlag_and_zeroFlag (q r : Nat) : (zeroFlag q && zeroFlag r) = decide (q = 0 ∧ r = 0) :=
  (Bool.decide_and _ _).symm

/-- Settles O57: past its checks for equal destinations and for a zero divisor, in that order, DIVMOD writes the
quotient and the remainder of the division. -/
theorem divmodRule : Obligations.DivmodRule := by
  refine ⟨selectedByFormatR (by decide) (fun _ _ _ _ _ => rfl) (fun _ _ _ _ _ _ => rfl),
    fun rd rd2 rs1 rs2 => ⟨wordR_eq_formatRWord 0x44 rd rd2 rs1 rs2 0, fun s => ?_⟩⟩
  obtain ⟨sameDest, differentDest⟩ := exec_check_cases (i := .divmod rd rd2 rs1 rs2) (s := s) rfl
  refine ⟨sameDest, fun hne => (exec_check_cases (differentDest hne)).1, fun hne hb => ?_⟩
  refine ⟨_, _, Nat.div_add_mod' _ _, Nat.mod_lt _ (Nat.pos_of_ne_zero hb), ?_⟩
  rw [← zeroFlag_and_zeroFlag]
  exact succeeds_twoDest hne ((exec_check_cases (differentDest hne)).2 hb)

/-! ## Signed values: SMOD and SREMAP (R11) -/

/-- Settles O59: SMOD is a modular command whose value `floorMod` is the residue of the signed operand. -/
theorem smodRule : Obligations.SmodRule := by
  refine ⟨selectedByFormatR (by decide) (fun _ _ _ _ _ => rfl) (fun _ _ _ _ _ _ => rfl),
    fun rd rs1 rs2 => ⟨wordR_eq_formatRWord 0x46 rd 0 rs1 rs2 0, fun s => ?_⟩⟩
  obtain ⟨zeroModulus, residue⟩ := modular_rule (i := .smod rd rs1 rs2) (s := s) rfl
  exact ⟨zeroModulus, fun hm => ⟨_, floorMod_cast _ hm, floorMod_lt _ hm, residue hm⟩⟩

/-- The remapped value lies within half the modulus of 0, so a modulus that fits in `w` bits leaves it in the range of
`signed_W` (R11, R179). -/
theorem signedRemap_range {w a b : Nat} (hw : 0 < w) (hb : b ≠ 0) (hbw : b < 2 ^ w) :
    -2 ^ (w - 1) ≤ signedRemap a b ∧ signedRemap a b < 2 ^ (w - 1) := by
  have half : 2 ^ w = 2 * 2 ^ (w - 1) := (mul_pow_sub_one hw.ne' 2).symm
  have residue : a % b < b := Nat.mod_lt a (Nat.pos_of_ne_zero hb)
  unfold signedRemap
  zify at *
  split <;> constructor <;> omega

/-- What SREMAP writes reads back as the remapped value (R11, R179). -/
theorem signedW_tcW_signedRemap {w a b : Nat} (hw : 0 < w) (hb : b ≠ 0) (hbw : b < 2 ^ w) :
    signedW w (tcW w (signedRemap a b)) = signedRemap a b := by
  obtain ⟨lo, hi⟩ := signedRemap_range (a := a) hw hb hbw
  exact signedW_tcW hw lo hi

/-- Settles O60: past its check for a zero modulus, SREMAP writes `tc_W` of the remapped value, which `signed_W`
undoes for a modulus in range. -/
theorem sremapRule : Obligations.SremapRule := by
  refine ⟨selectedByFormatR (by decide) (fun _ _ _ _ _ => rfl) (fun _ _ _ _ _ _ => rfl),
    fun rd rs1 rs2 => ⟨wordR_eq_formatRWord 0x47 rd 0 rs1 rs2 0, fun s => ?_⟩⟩
  obtain ⟨zeroModulus, remapped⟩ := exec_check_cases (i := .sremap rd rs1 rs2) (s := s) rfl
  refine ⟨zeroModulus, fun hb => ⟨_, _, rfl, tcW_cast _ (signedRemap (s.reg rs1) (s.reg rs2)), ?_, ?_⟩⟩
  · rintro ⟨wide, -⟩ inRange
    exact signedW_tcW_signedRemap (by omega) hb (inRange rs2)
  · exact ⟨_, remapped hb, successful_write s rd _ _⟩

end Sys2Proof.Proofs
end

section
/-! PROOFS. The exceptions family: the completion of every command, with success or with an error, and what decides it
(spec/60_exceptions.md). -/

namespace Sys2Proof.Machine

theorem EngineNext.err_eq {s s0 : State} (h : EngineNext s s0) : s0.err = s.err := by
  rw [Laws.EngineNext.fields h]

/-- An error is all that separates a failed completion from the one of a NOP (R171, R213). -/
theorem State.raiseError_eq_nop (s : State) (c : CmdError) :
    s.raiseError c =
      { s.complete (.ok { writes := [], z := none, cmp := none }) with err := true, errCode := some c } := rfl

/-- What a command writes into the register file does not depend on the rest of the state. -/
theorem State.writeRegs_regs_congr {s s' : State} (h : s.regs = s'.regs) (ws : List (Reg × Nat)) :
    (s.writeRegs ws).regs = (s'.writeRegs ws).regs := by
  induction ws generalizing s s' with
  | nil => exact h
  | cons w ws ih => exact ih (by simp [h])

theorem State.complete_regs_congr {s s' : State} (h : s.regs = s'.regs) (r : CmdResult) :
    (s.complete r).regs = (s'.complete r).regs := by
  cases r with
  | ok e => exact writeRegs_regs_congr h e.writes
  | error c => exact h

theorem State.complete_z_congr {s s' : State} (h : s.z = s'.z) (r : CmdResult) :
    (s.complete r).z = (s'.complete r).z := by
  cases r <;> simp [State.complete, h]

theorem State.complete_cmp_congr {s s' : State} (h : s.cmp = s'.cmp) (r : CmdResult) :
    (s.complete r).cmp = (s'.complete r).cmp := by
  cases r <;> simp [State.complete, h]

theorem State.complete_err_congr {s s' : State} (h : s.err = s'.err) (hc : s.errCode = s'.errCode) (r : CmdResult) :
    (s.complete r).err = (s'.complete r).err ∧ (s.complete r).errCode = (s'.complete r).errCode := by
  cases r <;> simp [State.complete, h, hc]

end Sys2Proof.Machine

namespace Sys2Proof.Proofs

open Sys2Proof.Machine Sys2Proof.Laws

/-! ## Completion with success or with an error (R212, R213) -/

/-- Settles O7: a command completes with a result of its own, and every completion keeps the frame. -/
theorem everyCommandCompletes : Obligations.EveryCommandCompletes := by
  intro i s
  obtain ⟨r, hr, -⟩ := exec_shape i s
  exact ⟨_, hr, completionFrame_complete s r⟩

/-- With a command in progress the engine's turn applies one result, the decoder's error or the command's own. -/
theorem engineTurn_eq_complete {s : State} (busy : s.busy = true) :
    ∃ r : CmdResult, engineTurn s = .next (s.complete r) := by
  rw [engineTurn, if_pos busy]
  cases decode s.cmdReg with
  | error c => exact ⟨.error c, rfl⟩
  | ok i =>
    obtain ⟨r, hr, -⟩ := exec_shape i s
    exact ⟨r, hr⟩

/-- Settles O8: success keeps ERR = 0, so the completion is `raiseError`, a NOP's but for ERR and ERRCODE. -/
theorem errorCompletionIsPrecise : Obligations.ErrorCompletionIsPrecise := by
  intro s s0 t hs0 busy noErr ht failed
  obtain ⟨r, hr⟩ := engineTurn_eq_complete (hs0.busy_eq.trans busy)
  obtain rfl := Host.Outcome.next.inj (hr.symm.trans ((step_of_engineNext hs0).symm.trans ht))
  cases r with
  | ok e =>
    have kept : (s0.complete (.ok e)).err = false := (State.finish_err s0 e).trans (hs0.err_eq.trans noErr)
    exact absurd failed (by simp [kept])
  | error c => exact ⟨c, _, errorCompletion_raiseError s0 c, rfl, s0.raiseError_eq_nop c⟩

/-! ## What a command's result depends on (R212) -/

/-- Every command's rule reads its operands through `reg` and the width through `bound` or `width`, and nothing else of
the state: with the rest replaced it gives the same result. -/
theorem exec_same_result (i : Instr) {s s' : State} (hregs : s.regs = s'.regs)
    (hwords : s.params.words = s'.params.words) :
    ∃ r : CmdResult, exec i s = .next (s.complete r) ∧ exec i s' = .next (s'.complete r) := by
  obtain ⟨⟨words, _, _⟩, regs⟩ := s
  obtain ⟨⟨words', _, _⟩, regs'⟩ := s'
  obtain rfl : regs = regs' := hregs
  obtain rfl : words = words' := hwords
  cases i <;> exact ⟨_, rfl, rfl⟩

/-- Settles O9: the two completions apply the one result of `exec_same_result`, each to its own state. -/
theorem executeDependsOnRegistersAlone : Obligations.ExecuteDependsOnRegistersAlone := by
  intro i s s' hregs hwords
  obtain ⟨r, e, e'⟩ := exec_same_result i hregs hwords
  exact ⟨r, _, _, e, e', rfl, rfl, State.complete_regs_congr hregs r, fun hz => State.complete_z_congr hz r,
    fun hcmp => State.complete_cmp_congr hcmp r, fun herr hcode => State.complete_err_congr herr hcode r⟩

end Sys2Proof.Proofs
end

section
/-! PROOFS. The reset and hazards family: reset abandons a command in progress, and a command in progress ends
(spec/70_reset_and_hazards.md). -/

namespace Sys2Proof.Proofs

open Sys2Proof.Machine Sys2Proof.Laws

/-! ## Reset (R240, R241) -/

/-- Settles O22: either reset is `resetBlock`, whatever BUSY was. -/
theorem resetRule : Obligations.ResetRule := fun _ hp h =>
  ⟨_, step_of_resetNext hp h, hasResetValues_resetBlock _, rfl, rfl, rfl⟩

/-! ## The schedule is used up while a command is in progress (R61, R250) -/

@[simp] theorem hostRead_pending (s : State) (off size : Nat) : (hostRead s off size).pending = s.pending := by
  obtain ⟨v, ⟨-, e⟩ | ⟨-, e⟩⟩ := hostRead_cases s off size <;> rw [e] <;> rfl

@[simp] theorem hostWrite_pending (s : State) (off size : Nat) (d : Word) :
    (hostWrite s off size d).pending = s.pending := by
  obtain e | ⟨-, -, -, e⟩ | ⟨-, -, e⟩ | ⟨-, -, -, e⟩ | ⟨-, -, -, e⟩ | ⟨-, -, -, e⟩ | ⟨-, -, -, e⟩ |
    ⟨-, -, _, _, -, -, e⟩ := hostWrite_cases s off size d <;> rw [e] <;> rfl

/-- Every host access of the schedule is inside the aperture, so that none of them stops the machine (log entry 2). -/
def ScheduleInside (p : Params) (es : List Event) : Prop :=
  (∀ off size, .host (.read off size) ∈ es → off < p.aperture) ∧
  ∀ off size d, .host (.write off size d) ∈ es → off < p.aperture

theorem ScheduleInside.tail {p : Params} {e : Event} {es : List Event} (h : ScheduleInside p (e :: es)) :
    ScheduleInside p es := by
  obtain ⟨reads, writes⟩ := h
  exact ⟨fun off size hmem => reads off size (.tail e hmem), fun off size d hmem => writes off size d (.tail e hmem)⟩

/-- With a command in progress the next event ends it, or is taken off the schedule and nothing else of the schedule or
of the parameters changes: the engine's turn completes the command, a reset abandons it, an access is answered. -/
theorem step_of_busy {s : State} {e : Event} {es : List Event} (busy : s.busy = true) (hs : s.pending = e :: es)
    (inside : ScheduleInside s.params (e :: es)) :
    ∃ t, step s = .next t ∧ (t.busy = false ∨ t.pending = es ∧ t.params = s.params) := by
  obtain ⟨reads, writes⟩ := inside
  cases e with
  | engine =>
    obtain ⟨t, ht, idle, -⟩ := step_completes (.inr ⟨es, hs, rfl⟩) busy
    exact ⟨t, ht, .inl idle⟩
  | hardReset => exact ⟨(s.setPending es).resetBlock, by simp [step, nextEvent, hs, runEvent], .inl rfl⟩
  | host a =>
    cases a with
    | read off size => exact ⟨_, step_of_read hs (reads off size (.head es)), .inr (by simp)⟩
    | write off size d => exact ⟨_, step_of_write hs (writes off size d (.head es)), .inr (by simp)⟩

/-- A command in progress ends by the engine's turn that follows the schedule, if no event of the schedule ends it. -/
theorem run_reaches_idle {s : State} {es : List Event} (busy : s.busy = true) (hs : s.pending = es)
    (inside : ScheduleInside s.params es) :
    ∃ n t, n ≤ es.length + 1 ∧ Host.Core.run Sys2Proof.core n s = .next t ∧ State.busy t = false := by
  induction es generalizing s with
  | nil =>
    obtain ⟨t, ht, idle, -⟩ := step_completes (.inl ⟨hs, rfl⟩) busy
    exact ⟨1, t, le_rfl, run_next core 0 ht, idle⟩
  | cons e es ih =>
    obtain ⟨t, ht, ended⟩ := step_of_busy busy hs inside
    by_cases hb : t.busy = true
    · obtain ⟨hpending, hparams⟩ := ended.resolve_left (by simp [hb])
      obtain ⟨n, u, hn, hu, idle⟩ := ih hb hpending (hparams ▸ inside.tail)
      exact ⟨n + 1, u, Nat.succ_le_succ hn, (run_next core n ht).trans hu, idle⟩
    · exact ⟨1, t, Nat.le_add_left 1 _, run_next core 0 ht, Bool.eq_false_iff.mpr hb⟩

/-- Settles O41, by induction on the schedule. -/
theorem acceptedCommandEnds : Obligations.AcceptedCommandEnds := fun _ busy reads writes =>
  run_reaches_idle busy rfl ⟨reads, writes⟩

end Sys2Proof.Proofs
end
